-- ==== Sys2Proof/Word.lean ====
section
/-! DEFINITION. The widths of the engine's words (spec/00_scope.md R5 to R7): plain bit vectors, all unsigned. -/

namespace Sys2Proof

/-- A hash-state word, schedule word or round constant: `WORD_BITS` = 32 (R5, R6). -/
abbrev Word := BitVec 32

/-- A byte of the block buffer, of a message or of the digest (R6). -/
abbrev Byte := BitVec 8

/-- A command word `CMD[9:0]`: `CMD_BITS` = 10 (R5, R61). -/
abbrev CmdWord := BitVec 10

/-- An offset in the block buffer: "An offset is a 6-bit unsigned number" (R41). No other offset exists. -/
abbrev Offset := BitVec 6

/-- The number of an aligned 32-bit word of the block buffer: word `i` stands at offset `4i` (R44, R47). -/
abbrev WordIndex := BitVec 4

/-- The byte counter: `LEN_BITS` = 61 (R5, R23). -/
abbrev Length := BitVec 61

/-- The hash state `H[0..7]`, `STATE_WORDS` = 8 (R5, R20). -/
abbrev HashState := Vector Word 8

/-- The sixteen 32-bit words of a block, `BLOCK_WORDS` = 16 (R5, R44). -/
abbrev BlockWords := Vector Word 16

/-- A block of 64 bytes, `BLOCK_BYTES` = 64 (R5, R14). -/
abbrev Block := Vector Byte 64

/-- The digest, `DIGEST_BYTES` = 32 (R5, R28). -/
abbrev Digest := Vector Byte 32

end Sys2Proof
end

