-- ==== Sys2Proof/Syntax.lean ====
section
/-! DEFINITION. The three commands (spec/opcode_table.json, spec/30_encoding.md R63). -/

namespace Sys2Proof

/-- A command of the engine. COMPRESS has no encoding and is no command (R63, R100); `UPDATE` and `UPDATE_REP` are
pseudo-commands made of `WRITE` (R69) and stand in Machine/Assembler.lean. -/
inductive Instr where
  /-- `INIT`: start a new digest computation (R80). -/
  | init
  /-- `WRITE d`: absorb one byte (R90). -/
  | write (d : Byte)
  /-- `FINAL`: pad, compress the last one or two blocks, produce the digest (R131). -/
  | final
  deriving DecidableEq, Repr

end Sys2Proof
end

