-- ==== Sys2Proof/WellFormed.lean ====
section
/-! DEFINITION. Which commands and which command words are well formed. -/

namespace Sys2Proof

/-- Every command is well formed: the one operand is a byte by its type (spec/30_encoding.md R62), and every 8-bit
value is well-formed input (spec/41_block_buffer.md R94). -/
def Instr.wf : Instr → Bool
  | .init => true
  | .write _ => true
  | .final => true

/-- Does the word agree with the row of `spec/opcode_table.json` of this match and mask? -/
def matchesRow (mtch mask w : CmdWord) : Bool := w &&& mask == mtch

/-- The command words: those that agree with a row of the opcode table, INIT, WRITE or FINAL, read by the table's
own match and mask. The other 766 words are reserved (spec/30_encoding.md R63 to R65). -/
def wordWf (w : CmdWord) : Bool :=
  matchesRow 0x000 0x3FF w || matchesRow 0x100 0x300 w || matchesRow 0x200 0x3FF w

end Sys2Proof
end

