-- ==== Sys2Proof/Decode.lean ====
section
/-! DEFINITION. Decoding a command word (spec/30_encoding.md R61 to R67), the encoder after it, and the reading of a
row of the opcode table. -/

namespace Sys2Proof

/-- The ways a command word can be reserved, each named. -/
inductive Reserved where
  /-- `op = 11`, any data (R64). -/
  | op11
  /-- `op = 00` with data other than 0 (R65). -/
  | initData
  /-- `op = 10` with data other than 0 (R65). -/
  | finalData
  deriving DecidableEq, Repr

/-- What a command word decodes to: a command, or `ILLEGAL` with the reason (R67). -/
inductive Decoded where
  | command (i : Instr)
  | illegal (r : Reserved)
  deriving DecidableEq, Repr

/-- `op = CMD[9:8]` (R61). -/
def opField (w : CmdWord) : BitVec 2 := w.extractLsb' 8 2

/-- `data = CMD[7:0]`, an unsigned byte used as it stands (R61, R62). -/
def dataField (w : CmdWord) : Byte := w.extractLsb' 0 8

/-- Why a word that is no command is reserved: by its operation code (R64, R65). -/
def reservedReason (op : BitVec 2) : Reserved :=
  if op = 0b00 then .initData else if op = 0b10 then .finalData else .op11

/-- Decoding, total on the 1024 words and a function of the word alone (R67). -/
def decode (w : CmdWord) : Decoded :=
  let op := opField w
  let data := dataField w
  if op = 0b00 ∧ data = 0 then .command .init
  else if op = 0b01 then .command (.write data)
  else if op = 0b10 ∧ data = 0 then .command .final
  else .illegal (reservedReason op)

/-- The word of operation code `op` and data `data`, in the format `CMD10` (R61). -/
def cmd10 (op : BitVec 2) (data : Byte) : CmdWord := op ++ data

/-- The encoding of each command (R63). -/
def encode : Instr → CmdWord
  | .init => cmd10 0b00 0
  | .write d => cmd10 0b01 d
  | .final => cmd10 0b10 0

/-- The command the decoder reads from a row's word, numbered as `spec/opcode_table.json` numbers it. A command is ten
bits whatever whole number of bytes the table's row is given (log entry 12): a word with a bit above bit 9 is no command word. -/
def decodeTableWord (_nbits w : Nat) : Option Instr :=
  if w < 1024 then
    match decode (BitVec.ofNat 10 w) with
    | .command i => some i
    | .illegal _ => none
  else none

end Sys2Proof
end

