-- ==== Sys2Proof/Config.lean ====
section
/-! DEFINITION. What the spec leaves free. -/

namespace Sys2Proof

/-- The content of `BUF` after a reset is unspecified (spec/10_state.md R38): the byte at the given offset after
the reset of the given number is a FREE VALUE (log entry 2). It has no body, so nothing can evaluate it; a
statement about it holds for every value. -/
opaque Config.freeBufByte : (resetNumber : Nat) → (offset : Nat) → Byte

end Sys2Proof
end

