-- ==== Sys2Proof/Machine/Memory.lean ====
section
/-! DEFINITION. The storage of the block buffer `BUF` (spec/10_state.md R22, spec/20_memory.md R40): the bytes written
since the last reset, as a list of offset and byte in one canonical form. -/

namespace Sys2Proof.Machine

/-- The bytes of `BUF` that something has written since the last reset, by offset. An offset that is not listed has
not been written: what it reads as is said in ONE place, `State.bufByte` of Machine/Ops.lean. -/
abbrev Memory := List Host.Cell

/-- The byte written at an offset, if one was. -/
def Memory.lookup : Memory → Nat → Option Byte
  | [], _ => none
  | (k, c) :: m, a => if k = a then some c else Memory.lookup m a

/-- Store one byte, in order of offset, in place of what was listed there. -/
def Memory.store : Memory → Nat → Byte → Memory
  | [], a, b => [(a, b)]
  | (k, c) :: m, a, b =>
    if a < k then (a, b) :: (k, c) :: m
    else if a = k then (a, b) :: m
    else (k, c) :: Memory.store m a b

/-- The canonical form: offsets strictly rising, all of them in the one address space `0 .. 63` (R40, R41). An unlisted
offset is unwritten, which no listed byte equals, so a listed byte never stands for an unlisted one. -/
abbrev Memory.wf (m : Memory) : Prop :=
  m.Pairwise (fun c d => c.1 < d.1) ∧ ∀ c ∈ m, c.1 < 64

end Sys2Proof.Machine
end

