-- ==== Sys2Proof/Machine/State.lean ====
section
/-! DEFINITION. The state of one engine (spec/10_state.md R36), the host's side of the command port, and the state
after reset (R37). Transient state (`W`, the working variables, `T1`, `T2`, `t`, `j`) is local to COMPRESS (R29, R30, R36). -/

namespace Sys2Proof.Machine

/-- `PHASE`, one bit (R25). -/
inductive Phase where
  /-- `PHASE = 0`: a digest computation is open. -/
  | absorb
  /-- `PHASE = 1`: FINAL has completed and `DIGEST` has a value. -/
  | done
  deriving DecidableEq, Repr

/-- What the engine samples on one rising edge of `CLK` at which it is not executing a command
(spec/30_encoding.md R60). -/
structure PortSample where
  /-- `RST`, synchronous, active high (R170). -/
  rst : Bool
  /-- `CMD_VALID`: the host presents a command word. -/
  valid : Bool
  /-- `CMD[9:0]`. -/
  cmd : CmdWord
  deriving DecidableEq, Repr

/-- The engine. The first six fields are the architectural state `(H, BUF, LEN, PHASE, ERR, ERRCODE)` of R36; the
last two are the model's own. -/
@[ext]
structure State where
  /-- `H[0..7]` (R20, R21). -/
  h : HashState
  /-- `BUF[0..63]`, the bytes written since reset (R22, R38). -/
  buf : Memory
  /-- `LEN`, the bytes absorbed since the last INIT or reset (R23). -/
  len : Length
  /-- `PHASE` (R25). -/
  phase : Phase
  /-- `ERR`, sticky (R26). -/
  err : Bool
  /-- `ERRCODE` (R26). -/
  errcode : BitVec 2
  /-- The MODEL'S OWN: what the host is going to present at the command port, edge by edge, the next first (R60, R53;
  log entry 1). -/
  port : List PortSample
  /-- The MODEL'S OWN: the number of resets so far, which the free content of `BUF` depends on (R38; log entry 2). -/
  resets : Nat
  deriving DecidableEq, Repr

/-- The reasons a step could stop the machine with a fault. There is none: every fault of the spec is an effect on `ERR` and
`ERRCODE` after which the engine goes on (spec/60_exceptions.md R159, R160), every command completes (R115, R182), and
no access outside `BUF` can be formed (R41, R47). So the type has no constructor (safe: nothing stops; log entry 13). -/
inductive Fault where
  deriving DecidableEq, Repr

/-- The reasons a step could refuse. -/
inductive Refusal where
  /-- An instruction that has no meaning yet. Raised by no arm of `exec`: every command has its meaning. Safe. -/
  | notModelled (mnemonic : String)
  deriving DecidableEq, Repr

/-- The state after reset (R37, R170, R171): `H = IV`, `LEN = 0`, `PHASE = ABSORB`, `ERR = 0`, `ERRCODE = 0`; `BUF` holds
nothing written. The host has presented nothing yet (log entry 1), and no reset is counted yet (log entry 2). -/
def State.reset : State where
  h := iv
  buf := []
  len := 0
  phase := .absorb
  err := false
  errcode := 0
  port := []
  resets := 0

end Sys2Proof.Machine
end

