-- ==== Sys2Proof/Machine/Flags.lean ====
section
/-! DEFINITION. `PHASE`, `ERR` and `ERRCODE` (spec/10_state.md R25, R26): the fault codes, what a fault records, and what
clears the record. The arithmetic of the engine writes no flag (R26, R116). -/

namespace Sys2Proof.Machine

/-- The three faults of the engine (spec/60_exceptions.md R150). -/
inductive FaultCause where
  /-- WRITE or FINAL while `PHASE = DONE` (R152). -/
  | reuseAfterFinalize
  /-- WRITE while `PHASE = ABSORB` and `LEN = LEN_MAX` (R153). -/
  | lengthOverflow
  /-- A reserved command word (R151). -/
  | illegalCommand
  deriving DecidableEq, Repr

/-- The code of a fault in `ERRCODE` (R150). -/
def faultCode : FaultCause → BitVec 2
  | .reuseAfterFinalize => 1
  | .lengthOverflow => 2
  | .illegalCommand => 3

/-- What a fault records: the first one since INIT or reset sets `ERR` and `ERRCODE`, a later one changes nothing
(R159). -/
def recordFault (c : FaultCause) (s : State) : State :=
  if s.err then s else { s with err := true, errcode := faultCode c }

/-- `PHASE`, `ERR` and `ERRCODE` as INIT and reset leave them: all 0 (R25, R26, R37). -/
def clearFlags (s : State) : State :=
  { s with phase := .absorb, err := false, errcode := 0 }

/-- `PHASE <- DONE`, the last line of FINAL (R131). -/
def setDone (s : State) : State := { s with phase := .done }

end Sys2Proof.Machine
end

