-- ==== Sys2Proof/Machine/Functions.lean ====
section
/-! DEFINITION. The word functions of the Compression Core (spec/42_compression_core.md R106 to R113) and the byte order
of words (spec/20_memory.md R44). Addition modulo 2^32 (R8, R116) is the addition of `Word`. -/

namespace Sys2Proof.Machine

/-- `ROTR^n(x)`, the right rotation, for `0 < n < 32` (R8, R106). -/
def rotr (n : Nat) (x : Word) : Word := (x >>> n) ||| (x <<< (32 - n))

/-- `SHR^n(x)`, the logical right shift (R8, R107). -/
def shr (n : Nat) (x : Word) : Word := x >>> n

/-- `Ch(x, y, z)`, in the form the source gives (R108). -/
def ch (x y z : Word) : Word := z ^^^ (x &&& (y ^^^ z))

/-- `Maj(x, y, z)`, in the form the source gives (R109). -/
def maj (x y z : Word) : Word := (x &&& y) ||| (z &&& (x ||| y))

/-- The large sigma 0 of `T2` (R110). -/
def bigSigma0 (x : Word) : Word := rotr 2 x ^^^ rotr 13 x ^^^ rotr 22 x

/-- The large sigma 1 of `T1` (R111). -/
def bigSigma1 (x : Word) : Word := rotr 6 x ^^^ rotr 11 x ^^^ rotr 25 x

/-- The small sigma 0 of the schedule, on `W[t-15]` (R112). -/
def smallSigma0 (x : Word) : Word := rotr 7 x ^^^ rotr 18 x ^^^ shr 3 x

/-- The small sigma 1 of the schedule, on `W[t-2]` (R113). -/
def smallSigma1 (x : Word) : Word := rotr 17 x ^^^ rotr 19 x ^^^ shr 10 x

/-- The big-endian word of four bytes, the first the most significant (R44, R56). -/
def wordOfBytes (b0 b1 b2 b3 : Byte) : Word := b0 ++ b1 ++ b2 ++ b3

/-- Byte `k` of a word in big-endian order, `k = 0 .. 3`: bits `31 - 8k` down to `24 - 8k` (R28, R57). -/
def byteOfWord (v : Word) (k : Nat) : Byte := v.extractLsb' (24 - 8 * k) 8

end Sys2Proof.Machine
end

