-- ==== Sys2Proof/Machine/Operands.lean ====
section
/-! DEFINITION. The operands and offsets that the commands form from the state: the fill cursor, the bit length and its two
words, the offsets of aligned words. The only operand in a command word is `data`, read in Decode.lean (R62). -/

namespace Sys2Proof.Machine

/-- The fill cursor `CUR = LEN mod 64 = LEN[5:0]`, also called `rem` (spec/10_state.md R24). -/
def State.cur (s : State) : Offset := s.len.extractLsb' 0 6

/-- The bit length `bits = LEN * 8`, in 64 bits (spec/43_finalizer.md R135). -/
def bitLength (len : Length) : BitVec 64 := len.setWidth 64 * 8

/-- `hi = bits[63:32]` (R135). -/
def lengthHi (len : Length) : Word := (bitLength len).extractLsb' 32 32

/-- `lo = bits[31:0]` (R135). -/
def lengthLo (len : Length) : Word := (bitLength len).extractLsb' 0 32

/-- The offset `4i` of word `i` of the block buffer. Every 32-bit access is at such an offset (spec/20_memory.md R47). -/
def wordOffset (i : WordIndex) : Offset := i ++ 0#2

/-- The word at offset 56, where the high word of the length field goes (R136). -/
def lengthHiIndex : WordIndex := 14

/-- The word at offset 60, where the low word of the length field goes (R136). -/
def lengthLoIndex : WordIndex := 15

end Sys2Proof.Machine
end

