-- ==== Sys2Proof/Machine/Ops.lean ====
section
/-! DEFINITION. The shared operations: the block buffer's reads and writes (spec/20_memory.md R56, R57), taking a fault
(spec/60_exceptions.md R159), the start of a computation, and hardware reset. -/

namespace Sys2Proof.Machine

/-- What one step answers. -/
abbrev Result := Host.Outcome State Fault Refusal

/-- Reading one byte of `BUF`, `MemRead(k, 1)` (R56). A byte that nothing has written since reset is a free value
(spec/10_state.md R38; log entry 2). This is the ONE definition of what an unlisted offset reads as. -/
def State.bufByte (s : State) (k : Offset) : Byte :=
  (s.buf.lookup k.toNat).getD (Config.freeBufByte s.resets k.toNat)

/-- The 64 bytes of `BUF`. -/
def State.block (s : State) : Block := Vector.ofFn fun k : Fin 64 => s.bufByte (BitVec.ofFin k)

/-- `MemRead(4i, 4)`: four bytes, the one at the lowest offset the most significant (R44, R56). -/
def memReadWord (s : State) (i : WordIndex) : Word :=
  let o := wordOffset i
  wordOfBytes (s.bufByte o) (s.bufByte (o + 1)) (s.bufByte (o + 2)) (s.bufByte (o + 3))

/-- `MemWrite(k, 1, v)` (R57). -/
def memWriteByte (k : Offset) (v : Byte) (s : State) : State :=
  { s with buf := s.buf.store k.toNat v }

/-- Byte stores in order, the first of the list first. -/
def storeAll (stores : List (Offset × Byte)) (s : State) : State :=
  stores.foldl (fun s c => memWriteByte c.1 c.2 s) s

/-- The four byte stores of `MemWrite(4i, 4, v)` (R57). -/
def wordStores (i : WordIndex) (v : Word) : List (Offset × Byte) :=
  let o := wordOffset i
  [(o, byteOfWord v 0), (o + 1, byteOfWord v 1), (o + 2, byteOfWord v 2), (o + 3, byteOfWord v 3)]

/-- `MemWrite(4i, 4, v)` (R57). -/
def memWriteWord (i : WordIndex) (v : Word) (s : State) : State := storeAll (wordStores i v) s

/-- `LEN <- LEN + n`. -/
def addLen (n : Nat) (s : State) : State := { s with len := s.len + BitVec.ofNat 61 n }

/-- The addressing mode "cursor with post-increment" of WRITE: store at `CUR`, then `LEN <- LEN + 1` (R57, R90). -/
def storeAtCursor (d : Byte) (s : State) : State := addLen 1 (memWriteByte s.cur d s)

/-- `raise F`: fault entry. It records the fault and ends the command; control goes nowhere, and the engine is ready for
the next command (R11, R159, R160). There is no handler and so no return from one (R160). -/
def raise (c : FaultCause) (s : State) : Result := .next (recordFault c s)

/-- The common effect of INIT and reset: `H <- IV`, `LEN <- 0`, and the flags cleared (spec/10_state.md R37). -/
def beginDigest (s : State) : State := clearFlags { s with h := iv, len := 0 }

/-- Hardware reset, an edge with `RST = 1` (spec/70_reset_and_hazards.md R170): as INIT, and `BUF` is unspecified
afterwards, so every byte of it is unwritten again and reads as the free value of a reset of its own. -/
def hardwareReset (s : State) : State :=
  beginDigest { s with buf := [], resets := s.resets + 1 }

/-- The sample that presents one command word, with `RST = 0` (spec/30_encoding.md R60). -/
def presentCommand (w : CmdWord) : PortSample := { rst := false, valid := true, cmd := w }

end Sys2Proof.Machine
end

