-- ==== Sys2Proof/Machine/Compression.lean ====
section
/-! DEFINITION. The Compression Core: the internal operation COMPRESS (spec/42_compression_core.md R100 to R105) and
the function `C` it computes (R121). The schedule and the working variables are local values (R29, R30). -/

namespace Sys2Proof.Machine

/-- Entry `t` of a schedule under construction. -/
def scheduleAt (w : List Word) (t : Nat) : Word := w.getD t 0

/-- The next entry `W[t]` of a schedule whose entries `W[0 .. t-1]` are given, for `t` from 16 (R102). -/
def nextScheduleWord (w : List Word) : Word :=
  let t := w.length
  smallSigma1 (scheduleAt w (t - 2)) + scheduleAt w (t - 7) + smallSigma0 (scheduleAt w (t - 15)) + scheduleAt w (t - 16)

/-- Extend a schedule by the given number of entries, in order (R102). -/
def extendSchedule : Nat → List Word → List Word
  | 0, w => w
  | n + 1, w => extendSchedule n (w ++ [nextScheduleWord w])

/-- The message schedule `W[0..63]` of sixteen block words (R101, R102). -/
def schedule (m : BlockWords) : List Word := extendSchedule 48 m.toList

/-- The working variables `a .. h` (R30). -/
structure Working where
  a : Word
  b : Word
  c : Word
  d : Word
  e : Word
  f : Word
  g : Word
  h : Word
  deriving DecidableEq, Repr

/-- Working-variable load (R103). -/
def loadWorking (s : HashState) : Working :=
  { a := s[0], b := s[1], c := s[2], d := s[3], e := s[4], f := s[5], g := s[6], h := s[7] }

/-- `T1` of a round with constant `k` and schedule word `w` (R104). -/
def roundT1 (v : Working) (k w : Word) : Word := v.h + bigSigma1 v.e + ch v.e v.f v.g + k + w

/-- `T2` of a round (R104). -/
def roundT2 (v : Working) : Word := bigSigma0 v.a + maj v.a v.b v.c

/-- One round: all right-hand sides on the values at its start (R104). -/
def compressionRound (v : Working) (k w : Word) : Working :=
  { h := v.g, g := v.f, f := v.e, e := v.d + roundT1 v k w
    d := v.c, c := v.b, b := v.a, a := roundT1 v k w + roundT2 v }

/-- The rounds of a list of constant and schedule word, the first of the list first. -/
def rounds (v : Working) (kw : List (Word × Word)) : Working :=
  kw.foldl (fun v p => compressionRound v p.1 p.2) v

/-- The 64 rounds `j = 0 .. 63` over a schedule, round `j` with `K[j]` and `W[j]` (R104). -/
def allRounds (v : Working) (w : List Word) : Working := rounds v (roundConstants.zip w)

/-- The working variables at the start of round `j`, for `j = 64` those that round 63 leaves (R103, R104). -/
def workingAt (s : HashState) (w : List Word) (j : Nat) : Working :=
  rounds (loadWorking s) ((roundConstants.zip w).take j)

/-- Feed-forward: each working variable is added into its state word, modulo 2^32 (R105). -/
def feedForward (s : HashState) (v : Working) : HashState :=
  #v[s[0] + v.a, s[1] + v.b, s[2] + v.c, s[3] + v.d, s[4] + v.e, s[5] + v.f, s[6] + v.g, s[7] + v.h]

/-- The new hash state of a hash state and sixteen block words: load, 64 rounds, feed-forward (R100). Irreducible, so that no
tactic runs 64 rounds on unknown words; the kernel evaluates it, and `unfold` and `simp` open it. -/
@[irreducible] def compressWords (s : HashState) (m : BlockWords) : HashState :=
  feedForward s (allRounds (loadWorking s) (schedule m))

/-- Block parsing from the buffer: `W[i] <- MemRead(4i, 4)` for `i = 0 .. 15` (R101). -/
def State.blockWords (s : State) : BlockWords :=
  Vector.ofFn fun i : Fin 16 => memReadWord s (BitVec.ofFin i)

/-- COMPRESS: `H` is replaced, nothing else changes (R100, R119). -/
def compress (s : State) : State := { s with h := compressWords s.h s.blockWords }

/-- The sixteen big-endian words of a block of 64 bytes (spec/20_memory.md R44). -/
def wordsOfBlock (b : Block) : BlockWords :=
  Vector.ofFn fun i : Fin 16 => wordOfBytes b[4 * i.val] b[4 * i.val + 1] b[4 * i.val + 2] b[4 * i.val + 3]

/-- The compression function `C(S, B)` on 8 words and 64 bytes (R121). -/
def compressionFunction (s : HashState) (b : Block) : HashState := compressWords s (wordsOfBlock b)

end Sys2Proof.Machine
end

