-- ==== Sys2Proof/Machine/BlockBuffer.lean ====
section
/-! DEFINITION. The Block Buffer: the command WRITE (spec/41_block_buffer.md R90) and the chunk-copy algorithm of UPDATE
(R95). -/

namespace Sys2Proof.Machine

/-- COMPRESS when the buffer has just become full, that is when `LEN mod 64 = 0` after a store (R91). -/
def compressIfFull (s : State) : State := if s.cur = 0 then compress s else s

/-- `WRITE d`: the `PHASE` test, the `LEN` test, then the store, the count and the full test (R90, R158). -/
def execWrite (d : Byte) (s : State) : Result :=
  if s.phase = .done then raise .reuseAfterFinalize s
  else if s.len = lenMax then raise .lengthOverflow s
  else .next (compressIfFull (storeAtCursor d s))

/-- The byte stores of one chunk of UPDATE, from an offset on (R95). -/
def chunkStores : Offset → List Byte → List (Offset × Byte)
  | _, [] => []
  | o, b :: bs => (o, b) :: chunkStores (o + 1) bs

/-- One pass of the loop of UPDATE on a chunk of `k` bytes, `1 <= k <= 64 - CUR` (R95). -/
def absorbChunk (chunk : List Byte) (s : State) : State :=
  compressIfFull (addLen chunk.length (storeAll (chunkStores s.cur chunk) s))

/-- The loop of UPDATE, at most the given number of passes; each pass takes at least one byte (R95). -/
def updateLoop : Nat → List Byte → State → State
  | 0, _, s => s
  | fuel + 1, bytes, s =>
    if bytes = [] then s
    else
      let k := min bytes.length (64 - s.cur.toNat)
      updateLoop fuel (bytes.drop k) (absorbChunk (bytes.take k) s)

/-- `UPDATE b[0 .. n-1]`, the source's chunk-copy algorithm `absorb(bytes)` (R95). The hardware receives it as `n` WRITE
commands (R69); the algorithm is stated for `PHASE = ABSORB` and `LEN + n <= LEN_MAX` (R96; log entry 16). -/
def update (bytes : List Byte) (s : State) : State := updateLoop bytes.length bytes s

end Sys2Proof.Machine
end

