-- ==== Sys2Proof/Machine/Finalizer.lean ====
section
/-! DEFINITION. The Finalizer: the command FINAL (spec/43_finalizer.md). -/

namespace Sys2Proof.Machine

/-- The stores of `for i in lo .. hi: MemWrite(i, 1, 0x00)`, none when `lo > hi` (R9, R133). -/
def zeroStores (lo hi : Nat) : List (Offset × Byte) :=
  (List.range' lo (hi + 1 - lo)).map fun i => (BitVec.ofNat 6 i, 0)

/-- The pad byte at `rem` and the zero fill of `rem + 1 .. 63` (R132, R133). -/
def padStores (rem : Offset) : List (Offset × Byte) := (rem, padByte) :: zeroStores (rem.toNat + 1) 63

/-- The stores that start the fresh second block: zeros at all offsets (R134). -/
def freshStores : List (Offset × Byte) := zeroStores 0 63

/-- Does the padding need a second block (R134)? -/
def needsSecondBlock (rem : Offset) : Bool := padLimit ≤ rem.toNat

/-- When the length field does not fit, compress the padded block and start a fresh one (R134). -/
def spillBlock (rem : Offset) (s : State) : State :=
  if needsSecondBlock rem then storeAll freshStores (compress s) else s

/-- The length field: `hi` at offset 56, then `lo` at offset 60 (R136). -/
def writeLength (s : State) : State :=
  memWriteWord lengthLoIndex (lengthLo s.len) (memWriteWord lengthHiIndex (lengthHi s.len) s)

/-- `FINAL` (R131). Its result, the 32 bytes `DIGEST`, is the digest output of the state it leaves (R138; log entry 5). -/
def execFinal (s : State) : Result :=
  if s.phase = .done then raise .reuseAfterFinalize s
  else .next (setDone (compress (writeLength (spillBlock s.cur (storeAll (padStores s.cur) s)))))

end Sys2Proof.Machine
end

