-- ==== Sys2Proof/Machine/Init.lean ====
section
/-! DEFINITION. The command INIT (spec/40_init.md). -/

namespace Sys2Proof.Machine

/-- `INIT`: accepted in every state, never faults; `BUF` keeps what it held (R80, R81). -/
def execInit (s : State) : Result := .next (beginDigest s)

end Sys2Proof.Machine
end

