-- ==== Sys2Proof/Machine/Dispatch.lean ====
section
/-! DEFINITION. One arm per command: its meaning. -/

namespace Sys2Proof.Machine

def exec (i : Instr) (s : State) : Host.Outcome State Fault Refusal :=
  match i with
  | .init => Sys2Proof.Machine.execInit s
  | .write d => Sys2Proof.Machine.execWrite d s
  | .final => Sys2Proof.Machine.execFinal s

end Sys2Proof.Machine
end

