-- ==== Sys2Proof/Machine/Accept.lean ====
section
/-! DEFINITION. What the engine does with what it samples at the command port (spec/30_encoding.md R60). -/

namespace Sys2Proof.Machine

/-- An accepted command word: decode, then the command, or `IllegalCommand` for a reserved word and nothing else
(R64, R65, R67, spec/60_exceptions.md R151, R158). -/
def runWord (w : CmdWord) (s : State) : Result :=
  match decode w with
  | .command i => exec i s
  | .illegal _ => raise .illegalCommand s

/-- One edge: `RST` takes precedence over a command at the same edge, which is not accepted (R170); a command is accepted
when `RST = 0` and `CMD_VALID = 1`, `CMD_READY` being 1 between commands (R60); otherwise the engine holds its state
(R165). -/
def acceptSample (p : PortSample) (s : State) : Result :=
  if p.rst then .next (hardwareReset s)
  else if p.valid then runWord p.cmd s
  else .next s

/-- The state after its next port sample has been taken off the port. -/
def State.takeSample (s : State) : State := { s with port := s.port.tail }

/-- The state whose host next presents the command word `w`, before what it was going to present. -/
def State.present (w : CmdWord) (s : State) : State := { s with port := presentCommand w :: s.port }

end Sys2Proof.Machine
end

