-- ==== Sys2Proof/Machine/Step.lean ====
section
/-! DEFINITION. One step: one edge of the port, with the whole of the command accepted at it (spec/20_memory.md R49). -/

namespace Sys2Proof.Machine

/-- Take the next sample off the port and act on it. A host that presents nothing more leaves the engine holding its
state, for any length of time (spec/60_exceptions.md R165). -/
def step (s : State) : Host.Outcome State Fault Refusal :=
  match s.port with
  | [] => .next s
  | p :: _ => acceptSample p s.takeSample

/-- The state whose next step runs the command of a word numbered as the opcode table numbers it: the host presents
it next. -/
def State.withFetchWord (s : State) (_nbits w : Nat) : State := s.present (BitVec.ofNat 10 w)

end Sys2Proof.Machine
end

