-- ==== Sys2Proof/Machine/Assembler.lean ====
section
/-! DEFINITION. The notation for command sequences and the pseudo-commands (spec/30_encoding.md R68, R69): a line of text is
read to a line of the notation, and a line stands for the commands it expands to. It is no part of the engine. -/

namespace Sys2Proof.Machine

/-- A line of the notation. Operands are the numerals as written; `AsmLine.wf` checks them. -/
inductive AsmLine where
  | init
  | write (byte : Nat)
  | final
  /-- `UPDATE <bytes>`. -/
  | update (bytes : List Nat)
  /-- `UPDATE_REP <count> <byte>`. -/
  | updateRep (count byte : Nat)
  deriving DecidableEq, Repr

/-- Every byte operand is a numeral `0 .. 255` (R68, R69). -/
def AsmLine.wf : AsmLine → Bool
  | .init => true
  | .write b => b < 256
  | .final => true
  | .update bs => bs.all (· < 256)
  | .updateRep _ b => b < 256

/-- The commands a line stands for: `UPDATE` is one WRITE per byte in order, nothing for no byte; `UPDATE_REP` is
`count` times one WRITE (R69). -/
def AsmLine.commands : AsmLine → List Instr
  | .init => [.init]
  | .write b => [.write (BitVec.ofNat 8 b)]
  | .final => [.final]
  | .update bs => bs.map fun b => .write (BitVec.ofNat 8 b)
  | .updateRep n b => List.replicate n (.write (BitVec.ofNat 8 b))

/-- The words of a program, line after line. -/
def assemble (lines : List AsmLine) : List CmdWord := lines.flatMap fun l => l.commands.map encode

/-- The value of a hexadecimal digit. -/
def hexDigit (c : Char) : Option Nat :=
  let n := c.toNat
  if 48 ≤ n ∧ n ≤ 57 then some (n - 48)
  else if 97 ≤ n ∧ n ≤ 102 then some (n - 87)
  else if 65 ≤ n ∧ n ≤ 70 then some (n - 55)
  else none

/-- The value of a non-empty row of digits below the base, after a value already read. -/
def digitsFrom (base : Nat) : Nat → List Char → Option Nat
  | v, [] => some v
  | v, c :: cs =>
    match hexDigit c with
    | some d => if d < base then digitsFrom base (base * v + d) cs else none
    | none => none

/-- A numeral, decimal or with `0x` hexadecimal (R6, R68). -/
def numeral : List Char → Option Nat
  | [] => none
  | ['0', 'x'] => none
  | '0' :: 'x' :: ds => digitsFrom 16 0 ds
  | ds => digitsFrom 10 0 ds

/-- A printable ASCII character. -/
def printable (c : Char) : Bool := 32 ≤ c.toNat && c.toNat ≤ 126

/-- A character that separates words. -/
def blankChar (c : Char) : Bool := c = ' ' || c = '\t'

/-- A character that can stand in a word or numeral. -/
def wordChar (c : Char) : Bool := !blankChar c && c != '#'

/-- Is the rest of a line empty but for blanks and a comment, `#` to end of line (R68)? -/
def lineEnds (cs : List Char) : Bool :=
  match cs.dropWhile blankChar with
  | [] => true
  | c :: _ => c = '#'

/-- A byte operand, a numeral or a printable character in single quotes, and the rest of the line (R68). -/
def readByteOperand : List Char → Option (Nat × List Char)
  | '\'' :: c :: '\'' :: rest => if printable c then some (c.toNat, rest) else none
  | cs => (numeral (cs.takeWhile wordChar)).map fun n => (n, cs.dropWhile wordChar)

/-- The bytes of `2n` hexadecimal digits (R69). -/
def hexPairs : List Char → Option (List Nat)
  | [] => some []
  | [_] => none
  | c :: d :: cs =>
    match hexDigit c, hexDigit d, hexPairs cs with
    | some x, some y, some bs => some ((16 * x + y) :: bs)
    | _, _, _ => none

/-- The bytes operand of UPDATE, `"..."` or `hex:...`, and the rest of the line (R69). -/
def readBytesOperand : List Char → Option (List Nat × List Char)
  | '"' :: cs =>
    let text := cs.takeWhile (· != '"')
    match cs.dropWhile (· != '"') with
    | '"' :: rest => if text.all printable then some (text.map Char.toNat, rest) else none
    | _ => none
  | 'h' :: 'e' :: 'x' :: ':' :: cs =>
    (hexPairs (cs.takeWhile wordChar)).map fun bs => (bs, cs.dropWhile wordChar)
  | _ => none

/-- The operands of a line after its mnemonic. -/
def readOperands (mnemonic : List Char) (cs : List Char) : Option (AsmLine × List Char) :=
  if mnemonic = ['I', 'N', 'I', 'T'] then some (.init, cs)
  else if mnemonic = ['F', 'I', 'N', 'A', 'L'] then some (.final, cs)
  else if mnemonic = ['W', 'R', 'I', 'T', 'E'] then
    (readByteOperand (cs.dropWhile blankChar)).map fun r => (.write r.1, r.2)
  else if mnemonic = ['U', 'P', 'D', 'A', 'T', 'E'] then
    (readBytesOperand (cs.dropWhile blankChar)).map fun r => (.update r.1, r.2)
  else if mnemonic = ['U', 'P', 'D', 'A', 'T', 'E', '_', 'R', 'E', 'P'] then
    let count := cs.dropWhile blankChar
    match numeral (count.takeWhile wordChar), readByteOperand ((count.dropWhile wordChar).dropWhile blankChar) with
    | some n, some r => some (.updateRep n r.1, r.2)
    | _, _ => none
  else none

/-- Read one line of text that holds a command (R68, R69): nothing may follow the operands but a comment, and the operands
must be well formed. -/
def readLine (line : List Char) : Option AsmLine :=
  let cs := line.dropWhile blankChar
  match readOperands (cs.takeWhile wordChar) (cs.dropWhile wordChar) with
  | some (l, rest) => if lineEnds rest && l.wf then some l else none
  | none => none

/-- A hexadecimal digit of a value below 16. -/
def digitChar (n : Nat) : Char := Char.ofNat (if n < 10 then 48 + n else 87 + n)

/-- How the spec writes an encoding: three hexadecimal digits, the word zero-extended to 12 bits (R68). -/
def encodingText (w : CmdWord) : List Char :=
  [digitChar (w.toNat / 256), digitChar (w.toNat / 16 % 16), digitChar (w.toNat % 16)]

end Sys2Proof.Machine
end

