-- ==== Sys2Proof/Machine/Engines.lean ====
section
/-! DEFINITION. Several engines: independent copies of one engine, their steps interleaved in any order
(spec/60_exceptions.md R162). They share the constant tables and nothing else (R163). -/

namespace Sys2Proof.Machine

/-- `n` engines, by number. -/
abbrev Engines := List State

/-- One step of engine `k`. Where there is no engine of that number nothing happens. -/
def stepEngine (k : Nat) (es : Engines) : Host.Outcome Engines Fault Refusal :=
  match es[k]? with
  | none => .next es
  | some s =>
    match step s with
    | .next t => .next (es.set k t)
    | .fault r => .fault r
    | .refused r => .refused r

/-- Steps of the engines of a schedule, in its order. -/
def runEngines : List Nat → Engines → Host.Outcome Engines Fault Refusal
  | [], es => .next es
  | k :: ks, es =>
    match stepEngine k es with
    | .next es' => runEngines ks es'
    | .fault r => .fault r
    | .refused r => .refused r

end Sys2Proof.Machine
end

