-- ==== Sys2Proof/Machine/Outputs.lean ====
section
/-! DEFINITION. What the host sees: the outputs of the engine between commands (spec/30_encoding.md R60, spec/10_state.md
R28, R36). Nothing else of the state is visible (R36). -/

namespace Sys2Proof.Machine

/-- The big-endian serialisation of a hash state: byte `4i + k` is byte `k` of word `i` (R28, R46, R138). -/
def digestBytes (h : HashState) : Digest :=
  Vector.ofFn fun n : Fin 32 => byteOfWord h[n.val / 4] (n.val % 4)

/-- `DIGEST[0..31]`: a value only in phase `DONE`, no value in phase `ABSORB` (R28, R177). -/
def State.digest (s : State) : Option Digest :=
  match s.phase with
  | .absorb => none
  | .done => some (digestBytes s.h)

/-- The port `DIGEST[255:0]`, `H[0]` in its top 32 bits and `H[7]` in its lowest (R60). -/
def digestPort (h : HashState) : BitVec 256 :=
  h[0] ++ h[1] ++ h[2] ++ h[3] ++ h[4] ++ h[5] ++ h[6] ++ h[7]

/-- `PHASE` as a port bit (R25). -/
def phaseBit : Phase → BitVec 1
  | .absorb => 0
  | .done => 1

/-- The output signals (R60). -/
structure Outputs where
  cmdReady : BitVec 1
  phase : BitVec 1
  err : BitVec 1
  errcode : BitVec 2
  /-- `none` where the port has no value. -/
  digest : Option (BitVec 256)
  deriving DecidableEq, Repr

/-- The outputs between commands. A command is one step, so in every state of the model no command is executing and
`CMD_READY` is 1 (R49, R60, R171; log entry 17). -/
def State.outputs (s : State) : Outputs where
  cmdReady := 1
  phase := phaseBit s.phase
  err := BitVec.ofBool s.err
  errcode := s.errcode
  digest := match s.phase with
    | .absorb => none
    | .done => some (digestPort s.h)

end Sys2Proof.Machine
end

