-- ==== Sys2Proof/Machine/Message.lean ====
section
/-! DEFINITION. SHA-256 of a whole message, as the spec defines it without the engine: the padded message
(spec/43_finalizer.md R140), its blocks, and the fold of the compression function over them (spec/42_compression_core.md
R121). Claims about the engine are stated against these. -/

namespace Sys2Proof.Machine

/-- Block `q` of a byte sequence, the bytes `64q .. 64q + 63` (R140). -/
def blockOf (m : List Byte) (q : Nat) : Block := Vector.ofFn fun i : Fin 64 => m.getD (64 * q + i.val) 0

/-- The hash state after the first `n` blocks of a byte sequence: `C` folded over them from `IV` (spec/10_state.md R34 (c),
R121). -/
def hashBlocks (m : List Byte) (n : Nat) : HashState :=
  (List.range n).foldl (fun s q => compressionFunction s (blockOf m q)) iv

/-- The number `z` of zero bytes in the padding of a message of `L` bytes (R140). -/
def padZeros (L : Nat) : Nat := if L % 64 ≤ 55 then 55 - L % 64 else 119 - L % 64

/-- `8L` as a 64-bit big-endian number, in bytes (R140). -/
def lengthField (L : Nat) : List Byte :=
  [7, 6, 5, 4, 3, 2, 1, 0].map fun k => BitVec.ofNat 8 (8 * L / 256 ^ k)

/-- `pad(m)` (R140). -/
def pad (m : List Byte) : List Byte :=
  m ++ [0x80] ++ List.replicate (padZeros m.length) 0 ++ lengthField m.length

/-- The digest of a message: `BE(C(... C(C(IV, B_1), B_2) ..., B_N))` over the blocks of `pad(m)` (R121). -/
def messageDigest (m : List Byte) : Digest := digestBytes (hashBlocks (pad m) ((pad m).length / 64))

end Sys2Proof.Machine
end

