-- ==== Sys2Proof/Machine/Run.lean ====
section
/-! DEFINITION. Sequences: commands executed one after the other (spec/20_memory.md R53), and several steps. -/

namespace Sys2Proof.Machine

/-- "the state after a command sequence is the left-to-right fold of the command rules over the sequence" (R53). -/
def runCommands : List Instr → State → Result
  | [], s => .next s
  | i :: is, s =>
    match exec i s with
    | .next t => runCommands is t
    | .fault r => .fault r
    | .refused r => .refused r

/-- The given number of steps, stopping at a fault or refusal. -/
def runSteps : Nat → State → Result
  | 0, s => .next s
  | n + 1, s =>
    match step s with
    | .next t => runSteps n t
    | .fault r => .fault r
    | .refused r => .refused r

end Sys2Proof.Machine
end

