-- ==== Sys2Proof/Safety.lean ====
section
/-! DEFINITION. What claims are stated in terms of: the invariant of a step, the invariant that ties the engine to the
message it absorbs, and when two engines cannot be told apart. -/

namespace Sys2Proof.Machine

/-- `ERR` and `ERRCODE` agree: `ERRCODE` is 0 exactly when `ERR` is 0 (spec/60_exceptions.md R150, R159). -/
abbrev State.errConsistent (s : State) : Prop := s.err = false ↔ s.errcode = 0

/-- The bytes of the partial block have been written: in phase `ABSORB` every offset below `CUR`, in phase `DONE` every
offset (spec/10_state.md R34, R35). So no COMPRESS reads the unspecified content of `BUF` (R38). -/
abbrev State.bufWritten (s : State) : Prop :=
  ∀ k : Offset, s.phase = .done ∨ k < s.cur → (s.buf.lookup k.toNat).isSome

/-- The invariant every step keeps. -/
structure State.Inv (s : State) : Prop where
  memoryWf : s.buf.wf
  errConsistent : s.errConsistent
  bufWritten : s.bufWritten

/-- The engine is absorbing the message `m`: the invariants of phase `ABSORB` (R34), in its order (a) to (c). That `LEN`
is the length of the message makes (a) a bound on the message. -/
structure State.Absorbed (s : State) (m : List Byte) : Prop where
  phase : s.phase = .absorb
  len : s.len.toNat = m.length
  buf : ∀ k : Offset, k < s.cur → m[m.length - s.cur.toNat + k.toNat]? = some (s.bufByte k)
  hash : s.h = hashBlocks m (m.length / 64)

/-- Two engines that no sequence of commands can tell apart (spec/40_init.md R82, spec/10_state.md R33): all of the
architectural state is the same but for the bytes of `BUF` that are stale or unwritten. -/
structure State.Agree (s t : State) : Prop where
  h : s.h = t.h
  len : s.len = t.len
  phase : s.phase = t.phase
  err : s.err = t.err
  errcode : s.errcode = t.errcode
  buf : s.phase = .absorb → ∀ k : Offset, k < s.cur → s.bufByte k = t.bufByte k

/-- The values that reset and INIT leave, written out (spec/10_state.md R32, R37). -/
abbrev State.initialValues (s : State) : Prop :=
  s.h = #v[0x6a09e667, 0xbb67ae85, 0x3c6ef372, 0xa54ff53a, 0x510e527f, 0x9b05688c, 0x1f83d9ab, 0x5be0cd19] ∧
  s.len = 0 ∧ s.cur = 0 ∧ s.phase = .absorb ∧ s.err = false ∧ s.errcode = 0

/-- Is the sample the acceptance of an INIT command? -/
def acceptsInit (p : PortSample) : Bool := !p.rst && p.valid && decode p.cmd = .command .init

/-- Does the sample begin a new computation, by reset or by INIT (spec/70_reset_and_hazards.md R170)? -/
def beginsDigest (p : PortSample) : Bool := p.rst || acceptsInit p

/-- Is the sample the acceptance of a WRITE command? -/
def acceptsWrite (p : PortSample) : Bool :=
  !p.rst && p.valid && match decode p.cmd with
    | .command (.write _) => true
    | _ => false

/-- Is the sample the acceptance of a FINAL command? -/
def acceptsFinal (p : PortSample) : Bool := !p.rst && p.valid && decode p.cmd = .command .final

/-- The command sequences that never fault, from a phase and with the given number of bytes absorbed (R173): WRITE and
FINAL only in phase `ABSORB`, at most `2^61 - 1` WRITE for one digest, INIT anywhere. -/
def legalFrom : Phase → Nat → List Instr → Bool
  | _, _, [] => true
  | _, _, .init :: is => legalFrom .absorb 0 is
  | .absorb, n, .write _ :: is => n < 2 ^ 61 - 1 && legalFrom .absorb (n + 1) is
  | .absorb, n, .final :: is => legalFrom .done n is
  | .done, _, .write _ :: _ => false
  | .done, _, .final :: _ => false

end Sys2Proof.Machine
end

