-- ==== Sys2Proof/Certificates/Slice0/Obligations.lean ====
section
/-! DEFINITION. The statements for the provers. -/

open Sys2Proof Sys2Proof.Machine

/-! ## Encoding and the command port -/

/-- Words written out bit by bit from the patterns of spec/30_encoding.md section 4: INIT, `WRITE 0x61`, `WRITE 0xff`, FINAL, and one
reserved word of each kind. -/
def Obligations.TableWordsDecode : Prop :=
  decode 0b0000000000 = .command .init ∧
  decode 0b0101100001 = .command (.write 0x61) ∧
  decode 0b0111111111 = .command (.write 0xff) ∧
  decode 0b1000000000 = .command .final ∧
  decode 0b0000000001 = .illegal .initData ∧
  decode 0b1011111111 = .illegal .finalData ∧
  decode 0b1100000000 = .illegal .op11

/-- R67: the decoding of every one of the 1024 words. -/
def Obligations.DecodingIsTheOpcodeMap : Prop :=
  (∀ w, opField w = 0b00 → dataField w = 0 → decode w = .command .init) ∧
  (∀ w, opField w = 0b01 → decode w = .command (.write (dataField w))) ∧
  (∀ w, opField w = 0b10 → dataField w = 0 → decode w = .command .final) ∧
  (∀ w, opField w = 0b00 → dataField w ≠ 0 → decode w = .illegal .initData) ∧
  (∀ w, opField w = 0b10 → dataField w ≠ 0 → decode w = .illegal .finalData) ∧
  (∀ w, opField w = 0b11 → decode w = .illegal .op11)

/-- R63: decoding and encoding agree both ways, the encodings are those of the opcode map, the words that decode to a command
are those that match a row of the opcode table, and there are 258 of them and 766 others. -/
def Obligations.DecodeAndEncodeAgree : Prop :=
  (∀ i : Instr, i.wf = true → decode (encode i) = .command i) ∧
  (∀ (w : CmdWord) (i : Instr), decode w = .command i → encode i = w) ∧
  (∀ w : CmdWord, wordWf w = true ↔ ∃ i, decode w = .command i) ∧
  (encode .init).toNat = 0x000 ∧ (∀ d, (encode (.write d)).toNat = 0x100 + d.toNat) ∧ (encode .final).toNat = 0x200 ∧
  ((List.range 1024).filter fun n => wordWf (BitVec.ofNat 10 n)).length = 258 ∧
  ((List.range 1024).filter fun n => !wordWf (BitVec.ofNat 10 n)).length = 766

/-- A step runs the command that its next sample presents, on the state with that sample taken; so does the step after
`withFetchWord`. -/
def Obligations.StepRunsThePresentedCommand : Prop :=
  (∀ (s : State) (w : CmdWord) (ps : List PortSample) (i : Instr),
    s.port = presentCommand w :: ps → decode w = .command i → step s = exec i { s with port := ps }) ∧
  (∀ (s : State) (i : Instr), step (s.present (encode i)) = exec i s) ∧
  (∀ (s : State) (nbits : Nat) (i : Instr),
    decodeTableWord nbits (encode i).toNat = some i ∧ step (s.withFetchWord nbits (encode i).toNat) = exec i s)

/-- R64, R65, R151: a reserved word raises `IllegalCommand` in every phase and whatever `LEN` is, and does nothing else. -/
def Obligations.ReservedWordIsRefused : Prop :=
  ∀ (s : State) (w : CmdWord) (ps : List PortSample), s.port = presentCommand w :: ps →
    (opField w = 0b11 ∨ (opField w = 0b00 ∧ dataField w ≠ 0) ∨ (opField w = 0b10 ∧ dataField w ≠ 0)) →
    step s = .next { s with port := ps, err := true, errcode := if s.err then s.errcode else 3 }

/-- Between commands the engine holds its state: nothing presented, or an edge with `RST = 0` and `CMD_VALID = 0`. That the
host's samples stand in a list is the model's choice (log entry 1). -/
def Obligations.EngineHoldsStateBetweenCommands : Prop :=
  (∀ s : State, s.port = [] → step s = .next s) ∧
  (∀ (s : State) (p : PortSample) (ps : List PortSample), s.port = p :: ps → p.rst = false → p.valid = false →
    step s = .next { s with port := ps })

/-- R53: the state after a command sequence is the left-to-right fold of the command rules over the sequence. -/
def Obligations.StepsFoldTheCommandRules : Prop :=
  ∀ (cs : List Instr) (s : State) (ps : List PortSample),
    s.port = (cs.map fun i => presentCommand (encode i)) ++ ps →
    runSteps cs.length s = runCommands cs { s with port := ps }

/-- R182: every accepted command completes, in one step, and so does every edge. -/
def Obligations.EveryCommandCompletes : Prop :=
  (∀ (i : Instr) (s : State), ∃ t, exec i s = .next t) ∧ (∀ s : State, ∃ t, step s = .next t) ∧
  (∀ (n : Nat) (s : State), ∃ t, runSteps n s = .next t)

/-- R69: `UPDATE` is one `WRITE` word per byte, in order, and `UPDATE_REP` the same word `count` times. -/
def Obligations.PseudoCommandsExpandToWrites : Prop :=
  (∀ bs : List Nat, (AsmLine.update bs).wf = true → (assemble [.update bs]).map BitVec.toNat = bs.map (256 + ·)) ∧
  (∀ n b : Nat, (AsmLine.updateRep n b).wf = true →
    (assemble [.updateRep n b]).map BitVec.toNat = List.replicate n (256 + b)) ∧
  assemble [.update []] = []

/-! ## Reset and INIT -/

/-- R37: the values after reset and after INIT: of the reset state, after an edge with `RST = 1` whatever else the edge
presents, and after INIT in any state. -/
def Obligations.ResetAndInitLeaveTheInitialValues : Prop :=
  State.reset.initialValues ∧
  (∀ (s : State) (p : PortSample) (ps : List PortSample), s.port = p :: ps → p.rst = true →
    ∃ t, step s = .next t ∧ t.initialValues ∧ t.port = ps) ∧
  (∀ s : State, ∃ t, exec .init s = .next t ∧ t.initialValues)

/-- R80: INIT completes in every state, with the values of a new computation; `BUF` keeps what it held. -/
def Obligations.InitStartsANewDigest : Prop :=
  ∀ s : State, ∃ t, exec .init s = .next t ∧ t.initialValues ∧ (∀ k, t.bufByte k = s.bufByte k) ∧ t.buf = s.buf ∧
    t.port = s.port ∧ t.resets = s.resets

/-- INIT is idempotent; a second FINAL is not the first. -/
def Obligations.InitIsIdempotent : Prop :=
  (∀ s : State, runCommands [.init, .init] s = runCommands [.init] s) ∧
  (∀ s : State, ∃ t u, runCommands [.init, .final] s = .next t ∧
    runCommands [.init, .final, .final] s = .next u ∧ t.err = false ∧ u = { t with err := true, errcode := 1 })

/-- R82, derived: after INIT every later output is that of a freshly reset engine that is given the same samples. -/
def Obligations.InitForgetsTheHistory : Prop :=
  ∀ (s : State) (ps : List PortSample) (n : Nat), s.port = presentCommand (encode .init) :: ps →
    ∃ u v, runSteps (n + 1) s = .next u ∧ runSteps n { State.reset with port := ps } = .next v ∧
      u.outputs = v.outputs ∧ u.digest = v.digest

/-! ## WRITE and the Block Buffer -/

/-- R90: WRITE in each of its three cases, and its frame. -/
def Obligations.WriteFollowsItsRule : Prop :=
  ∀ (s : State) (d : Byte),
    (s.phase = .done → exec (.write d) s = .next { s with err := true, errcode := if s.err then s.errcode else 1 }) ∧
    (s.phase = .absorb → s.len.toNat = 2 ^ 61 - 1 →
      exec (.write d) s = .next { s with err := true, errcode := if s.err then s.errcode else 2 }) ∧
    (s.phase = .absorb → s.len.toNat < 2 ^ 61 - 1 →
      ∃ t, exec (.write d) s = .next t ∧
        t.len.toNat = s.len.toNat + 1 ∧
        (∀ k, t.bufByte k = if k = s.cur then d else s.bufByte k) ∧
        t.h = (if (s.len.toNat + 1) % 64 = 0 then compressionFunction s.h t.block else s.h) ∧
        t.phase = s.phase ∧ t.err = s.err ∧ t.errcode = s.errcode ∧ t.port = s.port ∧ t.resets = s.resets)

/-- The three forms of the full test are the same condition, and a state whose cursor is 0 for another reason is not full:
the cursor before the WRITE is 63, the length after it is a multiple of 64, the cursor after it is 0. -/
def Obligations.BufferIsFullAtOffset63 : Prop :=
  ∀ (s t : State) (d : Byte), s.phase = .absorb → s.len.toNat < 2 ^ 61 - 1 → exec (.write d) s = .next t →
    (s.cur = 63 ↔ t.cur = 0) ∧ (t.cur = 0 ↔ t.len.toNat % 64 = 0) ∧ (s.cur ≠ 63 → t.h = s.h) ∧
    (s.cur ≠ 63 → t.cur = s.cur + 1)

/-- R96: the chunk-copy algorithm of UPDATE and the WRITE commands of its bytes leave the same state. -/
def Obligations.UpdateIsTheWritesOfItsBytes : Prop :=
  ∀ (bs : List Byte) (s : State), s.phase = .absorb → s.len.toNat + bs.length ≤ 2 ^ 61 - 1 →
    runCommands (bs.map .write) s = .next (update bs s)

/-- Chunking invariance: the message may be split at any points, empty chunks included. -/
def Obligations.ChunkingDoesNotMatter : Prop :=
  ∀ (chunks : List (List Byte)) (s : State), s.phase = .absorb →
    s.len.toNat + chunks.flatten.length ≤ 2 ^ 61 - 1 →
    chunks.foldl (fun s b => update b s) s = update chunks.flatten s

/-- R56, R57 and the read back: a word is read and written with its most significant byte at the lowest offset, and a
write leaves every other byte and all other state alone. -/
def Obligations.BufferWordsAreBigEndian : Prop :=
  (∀ (s : State) (i : WordIndex), (memReadWord s i).toNat =
    (s.bufByte (BitVec.ofNat 6 (4 * i.toNat))).toNat * 2 ^ 24 +
    (s.bufByte (BitVec.ofNat 6 (4 * i.toNat + 1))).toNat * 2 ^ 16 +
    (s.bufByte (BitVec.ofNat 6 (4 * i.toNat + 2))).toNat * 2 ^ 8 +
    (s.bufByte (BitVec.ofNat 6 (4 * i.toNat + 3))).toNat) ∧
  (∀ (s : State) (i : WordIndex) (v : Word) (k : Offset), ((memWriteWord i v s).bufByte k).toNat =
    if k.toNat / 4 = i.toNat then v.toNat / 256 ^ (3 - k.toNat % 4) % 256 else (s.bufByte k).toNat) ∧
  (∀ (s : State) (i j : WordIndex) (v : Word),
    memReadWord (memWriteWord i v s) j = if i = j then v else memReadWord s j) ∧
  (∀ (s : State) (k k' : Offset) (v : Byte),
    (memWriteByte k v s).bufByte k' = if k = k' then v else s.bufByte k') ∧
  (∀ (s : State) (i : WordIndex) (v : Word), memWriteWord i v s = { s with buf := (memWriteWord i v s).buf }) ∧
  (∀ (s : State) (k : Offset) (v : Byte), memWriteByte k v s = { s with buf := (memWriteByte k v s).buf })

/-! ## The Compression Core -/

/-- The right rotation and the logical right shift, as numbers and bit by bit. R106 and R107 mark the two formulas as general
knowledge (log entry 7). -/
def Obligations.RotationAndShift : Prop :=
  ∀ (n : Nat) (x : Word), 0 < n → n < 32 →
    (rotr n x).toNat = x.toNat / 2 ^ n + x.toNat % 2 ^ n * 2 ^ (32 - n) ∧
    (∀ i < 32, (rotr n x).getLsbD i = x.getLsbD ((i + n) % 32)) ∧
    (shr n x).toNat = x.toNat / 2 ^ n

/-- R108, R109: `Ch` and `Maj` in SRC's form; `Ch` selects and `Maj` takes the majority, bit by bit; the usual forms and the
corner cases. -/
def Obligations.ChooseAndMajority : Prop :=
  ∀ x y z : Word,
    ch x y z = z ^^^ (x &&& (y ^^^ z)) ∧ maj x y z = (x &&& y) ||| (z &&& (x ||| y)) ∧
    (∀ i, (ch x y z).getLsbD i = if x.getLsbD i then y.getLsbD i else z.getLsbD i) ∧
    (∀ i, (maj x y z).getLsbD i = true ↔ 2 ≤ [x.getLsbD i, y.getLsbD i, z.getLsbD i].count true) ∧
    ch x y z = (x &&& y) ^^^ (~~~x &&& z) ∧
    maj x y z = (x &&& y) ^^^ (x &&& z) ^^^ (y &&& z) ∧
    ch 0xffffffff y z = y ∧ ch 0 y z = z ∧ ch x y y = y ∧
    maj x x z = x ∧ maj 0 y z = y &&& z ∧ maj 0xffffffff y z = y ||| z

/-- Derived: the four sigma functions (R110 to R113), bit by bit, from bit `(i + n) mod 32` for each rotation and bit `i + n`,
if there is one, for the shift. Those positions are R106 and R107, which the spec marks as general knowledge (log entry 7). -/
def Obligations.SigmaFunctionsBitByBit : Prop :=
  ∀ (x : Word) (i : Nat), i < 32 →
    (bigSigma0 x).getLsbD i =
      ((x.getLsbD ((i + 2) % 32) ^^ x.getLsbD ((i + 13) % 32)) ^^ x.getLsbD ((i + 22) % 32)) ∧
    (bigSigma1 x).getLsbD i =
      ((x.getLsbD ((i + 6) % 32) ^^ x.getLsbD ((i + 11) % 32)) ^^ x.getLsbD ((i + 25) % 32)) ∧
    (smallSigma0 x).getLsbD i =
      ((x.getLsbD ((i + 7) % 32) ^^ x.getLsbD ((i + 18) % 32)) ^^ (decide (i + 3 < 32) && x.getLsbD (i + 3))) ∧
    (smallSigma1 x).getLsbD i =
      ((x.getLsbD ((i + 17) % 32) ^^ x.getLsbD ((i + 19) % 32)) ^^ (decide (i + 10 < 32) && x.getLsbD (i + 10)))

/-- The constants are the first 32 bits of the fractional parts of the square roots of the first eight primes and of the
cube roots of the first 64. R32 and R114 mark the values as general knowledge (log entry 7). -/
def Obligations.ConstantsAreRootsOfPrimes : Prop :=
  let primes := (List.range 312).filter fun p => 1 < p && (List.range p).all fun q => q < 2 || p % q != 0
  primes.length = 64 ∧ roundConstants.length = 64 ∧
  (∀ i : Fin 8, iv[i].toNat = Nat.sqrt (primes.getD i.val 0 * 2 ^ 64) % 2 ^ 32) ∧
  (∀ j < 64, ∃ r, r ^ 3 ≤ primes.getD j 0 * 2 ^ 96 ∧ primes.getD j 0 * 2 ^ 96 < (r + 1) ^ 3 ∧
    (roundConstants.getD j 0).toNat = r % 2 ^ 32)

/-- R101, R102: the schedule of a block has 64 entries, the sixteen big-endian words of the block and then the recurrence; the
zero block gives zeros. -/
def Obligations.MessageScheduleRecurrence : Prop :=
  (∀ b : Block,
    let w := schedule (wordsOfBlock b)
    w.length = 64 ∧
    (∀ i : Fin 16, (scheduleAt w i.val).toNat =
      b[4 * i.val].toNat * 2 ^ 24 + b[4 * i.val + 1].toNat * 2 ^ 16 + b[4 * i.val + 2].toNat * 2 ^ 8 +
      b[4 * i.val + 3].toNat) ∧
    (∀ t, 16 ≤ t → t < 64 → (scheduleAt w t).toNat =
      ((smallSigma1 (scheduleAt w (t - 2))).toNat + (scheduleAt w (t - 7)).toNat +
       (smallSigma0 (scheduleAt w (t - 15))).toNat + (scheduleAt w (t - 16)).toNat) % 2 ^ 32)) ∧
  (∀ t, scheduleAt (schedule (wordsOfBlock (Vector.replicate 64 0))) t = 0)

/-- Derived from R103 to R105: each of the 64 rounds is SRC's, all sums modulo `2^32`; and the result adds what round 63 leaves to the hash
state. The first clause, the load of the working variables, is R103, which the spec marks as general knowledge (log entry 7). -/
def Obligations.CompressionIsSixtyFourRounds : Prop :=
  ∀ (s : HashState) (b : Block) (w : List Word), w = schedule (wordsOfBlock b) →
    workingAt s w 0 = { a := s[0], b := s[1], c := s[2], d := s[3], e := s[4], f := s[5], g := s[6], h := s[7] } ∧
    (∀ (j : Nat) (v v' : Working) (t1 t2 : Nat), j < 64 → v = workingAt s w j → v' = workingAt s w (j + 1) →
      t1 = (v.h.toNat + (bigSigma1 v.e).toNat + (ch v.e v.f v.g).toNat + (roundConstants.getD j 0).toNat +
        (scheduleAt w j).toNat) % 2 ^ 32 →
      t2 = ((bigSigma0 v.a).toNat + (maj v.a v.b v.c).toNat) % 2 ^ 32 →
      v'.h = v.g ∧ v'.g = v.f ∧ v'.f = v.e ∧ v'.e.toNat = (v.d.toNat + t1) % 2 ^ 32 ∧
      v'.d = v.c ∧ v'.c = v.b ∧ v'.b = v.a ∧ v'.a.toNat = (t1 + t2) % 2 ^ 32) ∧
    (∀ v : Working, v = workingAt s w 64 →
      (compressionFunction s b).toList.map BitVec.toNat =
        (s.toList.zip [v.a, v.b, v.c, v.d, v.e, v.f, v.g, v.h]).map fun p => (p.1.toNat + p.2.toNat) % 2 ^ 32)

/-- R119, R120: COMPRESS is `H <- C(H, BUF)`: it depends on `H` and the 64 bytes of `BUF` alone and changes `H` alone. -/
def Obligations.CompressChangesTheHashStateAlone : Prop :=
  ∀ s : State, compress s = { s with h := compressionFunction s.h (Vector.ofFn fun k : Fin 64 => s.bufByte (BitVec.ofFin k)) }

/-! ## FINAL and the digest -/

/-- R135: the bit length and its two words, with the boundary values. -/
def Obligations.BitLengthIsExact : Prop :=
  (∀ len : Length,
    (bitLength len).toNat = 8 * len.toNat ∧
    (lengthHi len).toNat = 8 * len.toNat / 2 ^ 32 ∧ (lengthLo len).toNat = 8 * len.toNat % 2 ^ 32 ∧
    lengthHi len = len.extractLsb' 29 32 ∧ lengthLo len = len.extractLsb' 0 29 ++ 0#3) ∧
  lengthHi 0x1fffffff = 0 ∧ lengthLo 0x1fffffff = 0xfffffff8 ∧
  lengthHi 0x20000000 = 1 ∧ lengthLo 0x20000000 = 0 ∧
  lengthHi lenMax = 0xffffffff ∧ lengthLo lenMax = 0xfffffff8

/-- R131, R139: FINAL in each of its cases. Byte `k` of the block compressed first when the field does not fit, and
byte `k` of the block compressed last, which `BUF` keeps, are written out; `LEN`, `ERR` and `ERRCODE` are unchanged; and the
byte stores are counted. That the digest output is what FINAL returns is the model's choice (log entry 5). -/
def Obligations.FinalFollowsItsRule : Prop :=
  ∀ s : State,
    (s.phase = .done → exec .final s = .next { s with err := true, errcode := if s.err then s.errcode else 1 }) ∧
    (s.phase = .absorb →
      let rem := s.len.toNat % 64
      let padded := fun k : Nat => if k < rem then s.bufByte (BitVec.ofNat 6 k) else if k = rem then 0x80 else 0
      let lengthByteAt := fun k : Nat => (BitVec.ofNat 8 (8 * s.len.toNat / 256 ^ (63 - k)) : Byte)
      ∃ t, exec .final s = .next t ∧
        (rem ≤ 55 →
          (∀ k : Offset, t.bufByte k = if k.toNat < 56 then padded k.toNat else lengthByteAt k.toNat) ∧
          t.h = compressionFunction s.h t.block ∧
          (padStores s.cur).length + (wordStores lengthHiIndex (lengthHi s.len)).length +
            (wordStores lengthLoIndex (lengthLo s.len)).length = 72 - rem) ∧
        (56 ≤ rem →
          (∀ k : Offset, t.bufByte k = if k.toNat < 56 then 0 else lengthByteAt k.toNat) ∧
          t.h = compressionFunction (compressionFunction s.h (Vector.ofFn fun k : Fin 64 => padded k.val)) t.block ∧
          (padStores s.cur).length + freshStores.length + (wordStores lengthHiIndex (lengthHi s.len)).length +
            (wordStores lengthLoIndex (lengthLo s.len)).length = 136 - rem) ∧
        t.phase = .done ∧ t.len = s.len ∧ t.err = s.err ∧ t.errcode = s.errcode ∧ t.port = s.port ∧
        t.resets = s.resets ∧ t.digest = some (digestBytes t.h))

/-- R28, R138: the digest is the big-endian serialisation of the hash state and has a value only in phase `DONE`; and the port
`DIGEST[255:0]` carries its byte `n` in bits `255 - 8n` down to `248 - 8n`. -/
def Obligations.DigestIsTheHashStateBigEndian : Prop :=
  (∀ s : State, s.phase = .absorb → s.digest = none ∧ s.outputs.digest = none) ∧
  (∀ s : State, s.phase = .done → s.digest = some (digestBytes s.h) ∧ s.outputs.digest = some (digestPort s.h)) ∧
  (∀ (h : HashState) (i : Fin 8) (k : Fin 4),
    ((digestBytes h)[4 * i.val + k.val]).toNat = h[i].toNat / 256 ^ (3 - k.val) % 256) ∧
  (∀ (h : HashState) (n : Fin 32), (digestPort h).extractLsb' (248 - 8 * n.val) 8 = (digestBytes h)[n])

/-- R140: the padded message: the shape, the least number of zeros, a length that is a multiple of 64, and the 64-bit
length at its end. -/
def Obligations.PaddedMessageIsWholeBlocks : Prop :=
  ∀ m : List Byte,
    (∃ z field, pad m = m ++ 0x80 :: (List.replicate z 0 ++ field) ∧ field.length = 8 ∧
      (m.length + 1 + z) % 64 = 56 ∧ (∀ z', (m.length + 1 + z') % 64 = 56 → z ≤ z') ∧
      (m.length < 2 ^ 61 → field.foldl (fun n b => 256 * n + b.toNat) 0 = 8 * m.length)) ∧
    (pad m).length = 64 * (m.length / 64 + if m.length % 64 ≤ 55 then 1 else 2)

/-- R141: the empty message gives the one digest the source prints, after INIT in any state and straight after reset, by one
compression of a block of the pad byte and zeros. -/
def Obligations.EmptyMessageDigest : Prop :=
  let d : Digest := #v[0xe3, 0xb0, 0xc4, 0x42, 0x98, 0xfc, 0x1c, 0x14, 0x9a, 0xfb, 0xf4, 0xc8, 0x99, 0x6f, 0xb9, 0x24,
    0x27, 0xae, 0x41, 0xe4, 0x64, 0x9b, 0x93, 0x4c, 0xa4, 0x95, 0x99, 0x1b, 0x78, 0x52, 0xb8, 0x55]
  let padded := fun k : Offset => (if k = 0 then 0x80 else 0 : Byte)
  (∀ s : State, ∃ t, runCommands [.init, .final] s = .next t ∧ t.digest = some d ∧ (∀ k, t.bufByte k = padded k) ∧
    t.h = compressionFunction iv t.block) ∧
  (∃ t, exec .final State.reset = .next t ∧ t.digest = some d ∧ (∀ k, t.bufByte k = padded k) ∧
    t.h = compressionFunction iv t.block)

/-- R121, R130: for EVERY message of at most `2^61 - 1` bytes, INIT in any state, then the WRITE of each byte, then FINAL gives the
digest of the message, which is built from `C` and the padding alone; after reset no INIT is needed. -/
def Obligations.EngineComputesTheMessageDigest : Prop :=
  ∀ m : List Byte, m.length ≤ 2 ^ 61 - 1 →
    (∀ s : State, ∃ t, runCommands (.init :: (m.map .write ++ [.final])) s = .next t ∧
      t.phase = .done ∧ t.err = false ∧ t.digest = some (messageDigest m)) ∧
    (∃ t, runCommands (m.map .write ++ [.final]) State.reset = .next t ∧
      t.phase = .done ∧ t.err = false ∧ t.digest = some (messageDigest m))

/-! ## Faults -/

/-- R159: fault entry. -/
def Obligations.FaultEntryKeepsTheFirstFault : Prop :=
  ∀ (c : FaultCause) (s : State),
    (s.err = false → raise c s = .next { s with err := true, errcode := faultCode c }) ∧
    (s.err = true → raise c s = .next s) ∧
    faultCode .reuseAfterFinalize = 1 ∧ faultCode .lengthOverflow = 2 ∧ faultCode .illegalCommand = 3

/-- R152: WRITE and FINAL after FINAL are refused. -/
def Obligations.ReuseAfterFinalizeIsRefused : Prop :=
  ∀ (s : State) (i : Instr), s.phase = .done → i ≠ .init →
    exec i s = .next { s with err := true, errcode := if s.err then s.errcode else 1 }

/-- A WRITE at the greatest length is refused, and FINAL stays legal there. -/
def Obligations.LengthOverflowIsRefused : Prop :=
  ∀ (s : State) (d : Byte), s.phase = .absorb → s.len.toNat = 2 ^ 61 - 1 →
    exec (.write d) s = .next { s with err := true, errcode := if s.err then s.errcode else 2 } ∧
    ∃ t, exec .final s = .next t ∧ t.phase = .done ∧ t.err = s.err ∧ t.len = s.len

/-- R157: the order in which the causes of a fault are looked at. -/
def Obligations.FaultPriority : Prop :=
  ∀ (s : State) (w : CmdWord) (ps : List PortSample), s.port = presentCommand w :: ps → s.err = false →
    ((∃ r, decode w = .illegal r) → ∃ t, step s = .next t ∧ t.err = true ∧ t.errcode = 3) ∧
    (s.phase = .done → (∃ d, decode w = .command (.write d)) ∨ decode w = .command .final →
      ∃ t, step s = .next t ∧ t.err = true ∧ t.errcode = 1) ∧
    (s.phase = .absorb → (∃ d, decode w = .command (.write d)) → s.len = lenMax →
      ∃ t, step s = .next t ∧ t.err = true ∧ t.errcode = 2)

/-- A recorded fault stops nothing: whatever `ERR` and `ERRCODE` hold, a command has the same effect on the rest of the
state. -/
def Obligations.RecordedFaultStopsNothing : Prop :=
  ∀ (i : Instr) (s t : State) (e : Bool) (c : BitVec 2), exec i s = .next t →
    ∃ u, exec i { s with err := e, errcode := c } = .next u ∧
      u.h = t.h ∧ u.buf = t.buf ∧ u.len = t.len ∧ u.phase = t.phase ∧ u.port = t.port ∧ u.resets = t.resets

/-- The command sequences of the lifecycle never fault. -/
def Obligations.LegalSequencesNeverFault : Prop :=
  ∀ (cs : List Instr) (s : State), s.err = false → legalFrom s.phase s.len.toNat cs = true →
    ∃ t, runCommands cs s = .next t ∧ t.err = false

/-! ## The whole machine -/

/-- Only an edge that begins a computation, by `RST` or by an accepted INIT, clears `ERR` or `ERRCODE` or leaves phase
`DONE`. -/
def Obligations.OnlyInitOrResetClearsAndReopens : Prop :=
  ∀ (s t : State), step s = .next t →
    ((s.err = true ∧ t.err = false) ∨ (s.errcode ≠ 0 ∧ t.errcode = 0) ∨ (s.phase = .done ∧ t.phase = .absorb)) →
    ∃ p ps, s.port = p :: ps ∧ beginsDigest p = true

/-- The digest is immutable: in phase `DONE` every edge that begins no computation leaves `H`, `LEN`, `PHASE`, every byte of
`BUF` and the digest alone. -/
def Obligations.FinishedDigestIsImmutable : Prop :=
  ∀ (s : State), s.phase = .done → (∀ p ps, s.port = p :: ps → beginsDigest p = false) →
    ∃ t, step s = .next t ∧ t.phase = .done ∧ t.h = s.h ∧ t.len = s.len ∧ (∀ k, t.bufByte k = s.bufByte k) ∧
      t.digest = s.digest ∧ t.outputs.digest = s.outputs.digest

/-- What `LEN` is after any edge: 0 after reset and INIT, one more after a WRITE that does not fault, otherwise what it was. -/
def Obligations.LengthCountsTheAbsorbedBytes : Prop :=
  ∀ (s t : State) (p : PortSample) (ps : List PortSample), s.port = p :: ps → step s = .next t →
    t.len.toNat =
      if beginsDigest p then 0
      else if acceptsWrite p && s.phase = .absorb && s.len.toNat < 2 ^ 61 - 1 then s.len.toNat + 1
      else s.len.toNat

/-- What `H` is after any edge: `IV` after reset and INIT; at a WRITE that fills the buffer, the compression of the buffer with
the new byte in it; at FINAL, the compression of the block that it leaves in the buffer, after that of the padded block where
the length field does not fit; otherwise what it was. -/
def Obligations.HashStateChangesByCompressionAlone : Prop :=
  ∀ (s t : State) (p : PortSample) (ps : List PortSample), s.port = p :: ps → step s = .next t →
    (beginsDigest p = true → t.h = iv) ∧
    (beginsDigest p = false → acceptsFinal p = false →
      t.h = if acceptsWrite p && s.phase = .absorb && s.len.toNat < 2 ^ 61 - 1 && s.len.toNat % 64 = 63
        then compressionFunction s.h t.block else s.h) ∧
    (acceptsFinal p = true → s.phase = .absorb → s.len.toNat % 64 ≤ 55 → t.h = compressionFunction s.h t.block) ∧
    (acceptsFinal p = true → s.phase = .absorb → 56 ≤ s.len.toNat % 64 →
      t.h = compressionFunction (compressionFunction s.h (storeAll (padStores s.cur) s).block) t.block) ∧
    (acceptsFinal p = true → s.phase = .done → t.h = s.h)

/-- The reset state has the invariant. -/
def Obligations.ResetHasTheInvariant : Prop := State.reset.Inv

/-- Every step keeps the invariant: the canonical form of the buffer, the agreement of `ERR` and `ERRCODE`, and that every byte of
the partial block, and in phase `DONE` every byte, has been written. -/
def Obligations.StepKeepsTheInvariant : Prop :=
  ∀ s t : State, s.Inv → step s = .next t → t.Inv

/-- No COMPRESS reads the unspecified content of `BUF`: under the invariant every byte of the block that a WRITE compresses,
and of each block that FINAL compresses, has been written. -/
def Obligations.CompressedBlocksAreWritten : Prop :=
  ∀ s : State, s.Inv → s.phase = .absorb →
    (∀ d, s.cur = 63 → ∀ k : Offset, ((storeAtCursor d s).buf.lookup k.toNat).isSome) ∧
    (∀ k : Offset, ((storeAll (padStores s.cur) s).buf.lookup k.toNat).isSome) ∧
    (∀ k : Offset, ((writeLength (spillBlock s.cur (storeAll (padStores s.cur) s))).buf.lookup k.toNat).isSome)

/-- R34, derived: the invariants of phase `ABSORB` hold after reset and INIT for the empty message, a WRITE that does not fault
appends its byte to the message, and a refused word leaves them. -/
def Obligations.MessageInvariantHolds : Prop :=
  State.reset.Absorbed [] ∧
  (∀ s t : State, exec .init s = .next t → t.Absorbed []) ∧
  (∀ (s : State) (m : List Byte) (d : Byte), s.Absorbed m → m.length < 2 ^ 61 - 1 →
    ∃ t, exec (.write d) s = .next t ∧ t.Absorbed (m ++ [d])) ∧
  (∀ (s t : State) (m : List Byte) (d : Byte), s.Absorbed m → m.length = 2 ^ 61 - 1 →
    exec (.write d) s = .next t → t.Absorbed m) ∧
  (∀ (s t : State) (m : List Byte) (w : CmdWord) (r : Reserved), s.Absorbed m → decode w = .illegal r →
    runWord w s = .next t → t.Absorbed m)

/-- Two engines that differ only in bytes of `BUF` that are stale or unwritten cannot be told apart by any samples. -/
def Obligations.StaleBytesAreUnobservable : Prop :=
  ∀ (n : Nat) (s t : State), s.Agree t → s.port = t.port →
    ∃ u v, runSteps n s = .next u ∧ runSteps n t = .next v ∧ u.Agree v ∧ u.outputs = v.outputs ∧ u.digest = v.digest

/-- R162: engines are independent: after any interleaving of their steps, each engine is where its own steps alone take it. -/
def Obligations.EnginesAreIndependent : Prop :=
  ∀ (ks : List Nat) (es : Engines), ∃ es', runEngines ks es = .next es' ∧ es'.length = es.length ∧
    ∀ (k : Nat) (s : State), es[k]? = some s → ∃ t, es'[k]? = some t ∧ runSteps (ks.count k) s = .next t
end

