-- ==== Sys2Proof/Laws/Memory.lean ====
section
/-! SUPPORT. The laws of the block buffer's storage: read after store, and the canonical form. -/

namespace Sys2Proof.Machine

theorem Memory.lookup_store (m : Memory) (a : Nat) (b : Byte) (a' : Nat) :
    (m.store a b).lookup a' = if a = a' then some b else m.lookup a' := by
  induction m with
  | nil => rfl
  | cons c m ih =>
    obtain ⟨k, c⟩ := c
    simp only [Memory.store]
    split
    · simp [Memory.lookup]
    · split
      · subst_vars
        by_cases h : k = a' <;> simp [Memory.lookup, h]
      · simp only [Memory.lookup, ih]
        by_cases h : k = a' <;> by_cases h' : a = a' <;> simp [h, h']
        omega

theorem Memory.mem_store {m : Memory} {a : Nat} {b : Byte} {c : Host.Cell}
    (h : c ∈ m.store a b) : c = (a, b) ∨ c ∈ m := by
  induction m with
  | nil => simpa [Memory.store] using h
  | cons d m ih =>
    obtain ⟨k, d⟩ := d
    simp only [Memory.store] at h
    split at h
    · simpa using h
    · split at h
      · rcases List.mem_cons.1 h with h | h <;> simp [h]
      · rcases List.mem_cons.1 h with h | h
        · simp [h]
        · rcases ih h with h | h <;> simp [h]

/-- A store inside the address space keeps the canonical form. -/
theorem Memory.wf_store {m : Memory} {a : Nat} (h : m.wf) (ha : a < 64) (b : Byte) :
    (m.store a b).wf := by
  refine ⟨?_, fun c hc => ?_⟩
  · have hp := h.1
    clear h
    induction m with
    | nil => simp [Memory.store]
    | cons d m ih =>
      obtain ⟨k, d⟩ := d
      rw [List.pairwise_cons] at hp
      simp only [Memory.store]
      split
      · rename_i hlt
        refine List.pairwise_cons.2 ⟨fun c hc => ?_, List.pairwise_cons.2 hp⟩
        rcases List.mem_cons.1 hc with rfl | hc
        · exact hlt
        · exact hlt.trans (hp.1 c hc)
      · split
        · subst_vars
          exact List.pairwise_cons.2 hp
        · refine List.pairwise_cons.2 ⟨fun c hc => ?_, ih hp.2⟩
          rcases Memory.mem_store hc with rfl | hc
          · show k < a
            omega
          · exact hp.1 c hc
  · rcases Memory.mem_store hc with rfl | hc
    · exact ha
    · exact h.2 c hc

theorem Memory.wf_nil : Memory.wf [] := by simp [Memory.wf]

theorem Memory.lookup_isSome {m : Memory} {a : Nat} : (m.lookup a).isSome ↔ ∃ b, (a, b) ∈ m := by
  induction m with
  | nil => simp [Memory.lookup]
  | cons d m ih =>
    obtain ⟨k, d⟩ := d
    by_cases h : k = a
    · subst h
      simp only [Memory.lookup, if_pos, Option.isSome_some, true_iff]
      exact ⟨d, List.mem_cons_self⟩
    · simp only [Memory.lookup, if_neg h, ih, List.mem_cons, Prod.mk.injEq]
      exact exists_congr fun b => ⟨Or.inr, fun h' => h'.resolve_left fun e => h e.1.symm⟩

/-- Two memories in canonical form that read alike are equal. -/
theorem Memory.ext_lookup {m n : Memory} (hm : m.wf) (hn : n.wf) (h : ∀ a, m.lookup a = n.lookup a) : m = n := by
  induction m generalizing n with
  | nil =>
    cases n with
    | nil => rfl
    | cons d n => simpa [Memory.lookup] using h d.1
  | cons c m ih =>
    obtain ⟨k, c⟩ := c
    cases n with
    | nil => simpa [Memory.lookup] using h k
    | cons d n =>
      obtain ⟨k', d⟩ := d
      have hm1 := List.pairwise_cons.1 hm.1
      have hn1 := List.pairwise_cons.1 hn.1
      have absent : ∀ {l : Memory} {x y : Nat}, (∀ e ∈ l, x < e.1) → y ≤ x → l.lookup y = none := by
        intro l x y hl hy
        by_contra hne
        obtain ⟨b, hb⟩ := Memory.lookup_isSome.1 (Option.isSome_iff_ne_none.2 hne)
        have := hl _ hb
        simp only at this
        omega
      have hk : k = k' := by
        rcases Nat.lt_trichotomy k k' with hlt | heq | hlt
        · have := h k
          simp only [Memory.lookup, if_true, if_neg (Nat.ne_of_gt hlt)] at this
          rw [absent hn1.1 (Nat.le_of_lt hlt)] at this
          simp at this
        · exact heq
        · have := h k'
          simp only [Memory.lookup, if_true, if_neg (Nat.ne_of_gt hlt)] at this
          rw [absent hm1.1 (Nat.le_of_lt hlt)] at this
          simp at this
      subst hk
      have hc : c = d := by simpa [Memory.lookup] using h k
      subst hc
      rw [ih ⟨hm1.2, fun e he => hm.2 e (List.mem_cons_of_mem _ he)⟩
        ⟨hn1.2, fun e he => hn.2 e (List.mem_cons_of_mem _ he)⟩]
      intro a
      by_cases ha : k = a
      · subst ha
        rw [absent hm1.1 le_rfl, absent hn1.1 le_rfl]
      · simpa [Memory.lookup, ha] using h a

end Sys2Proof.Machine
end

