-- ==== Sys2Proof/Laws/State.lean ====
section
/-! SUPPORT. One lemma per field per update of the state, so that no proof unfolds a record update. -/

namespace Sys2Proof.Machine

section RecordUpdates
variable (s : State)

@[simp] theorem memWriteByte_h (k : Offset) (v : Byte) : (memWriteByte k v s).h = s.h := rfl
@[simp] theorem memWriteByte_buf (k : Offset) (v : Byte) : (memWriteByte k v s).buf = s.buf.store k.toNat v := rfl
@[simp] theorem memWriteByte_len (k : Offset) (v : Byte) : (memWriteByte k v s).len = s.len := rfl
@[simp] theorem memWriteByte_phase (k : Offset) (v : Byte) : (memWriteByte k v s).phase = s.phase := rfl
@[simp] theorem memWriteByte_err (k : Offset) (v : Byte) : (memWriteByte k v s).err = s.err := rfl
@[simp] theorem memWriteByte_errcode (k : Offset) (v : Byte) : (memWriteByte k v s).errcode = s.errcode := rfl
@[simp] theorem memWriteByte_port (k : Offset) (v : Byte) : (memWriteByte k v s).port = s.port := rfl
@[simp] theorem memWriteByte_resets (k : Offset) (v : Byte) : (memWriteByte k v s).resets = s.resets := rfl

@[simp] theorem addLen_h (n : Nat) : (addLen n s).h = s.h := rfl
@[simp] theorem addLen_buf (n : Nat) : (addLen n s).buf = s.buf := rfl
@[simp] theorem addLen_len (n : Nat) : (addLen n s).len = s.len + BitVec.ofNat 61 n := rfl
@[simp] theorem addLen_phase (n : Nat) : (addLen n s).phase = s.phase := rfl
@[simp] theorem addLen_err (n : Nat) : (addLen n s).err = s.err := rfl
@[simp] theorem addLen_errcode (n : Nat) : (addLen n s).errcode = s.errcode := rfl
@[simp] theorem addLen_port (n : Nat) : (addLen n s).port = s.port := rfl
@[simp] theorem addLen_resets (n : Nat) : (addLen n s).resets = s.resets := rfl

@[simp] theorem clearFlags_h : (clearFlags s).h = s.h := rfl
@[simp] theorem clearFlags_buf : (clearFlags s).buf = s.buf := rfl
@[simp] theorem clearFlags_len : (clearFlags s).len = s.len := rfl
@[simp] theorem clearFlags_phase : (clearFlags s).phase = .absorb := rfl
@[simp] theorem clearFlags_err : (clearFlags s).err = false := rfl
@[simp] theorem clearFlags_errcode : (clearFlags s).errcode = 0 := rfl
@[simp] theorem clearFlags_port : (clearFlags s).port = s.port := rfl
@[simp] theorem clearFlags_resets : (clearFlags s).resets = s.resets := rfl

@[simp] theorem setDone_h : (setDone s).h = s.h := rfl
@[simp] theorem setDone_buf : (setDone s).buf = s.buf := rfl
@[simp] theorem setDone_len : (setDone s).len = s.len := rfl
@[simp] theorem setDone_phase : (setDone s).phase = .done := rfl
@[simp] theorem setDone_err : (setDone s).err = s.err := rfl
@[simp] theorem setDone_errcode : (setDone s).errcode = s.errcode := rfl
@[simp] theorem setDone_port : (setDone s).port = s.port := rfl
@[simp] theorem setDone_resets : (setDone s).resets = s.resets := rfl

@[simp] theorem beginDigest_h : (beginDigest s).h = iv := rfl
@[simp] theorem beginDigest_buf : (beginDigest s).buf = s.buf := rfl
@[simp] theorem beginDigest_len : (beginDigest s).len = 0 := rfl
@[simp] theorem beginDigest_phase : (beginDigest s).phase = .absorb := rfl
@[simp] theorem beginDigest_err : (beginDigest s).err = false := rfl
@[simp] theorem beginDigest_errcode : (beginDigest s).errcode = 0 := rfl
@[simp] theorem beginDigest_port : (beginDigest s).port = s.port := rfl
@[simp] theorem beginDigest_resets : (beginDigest s).resets = s.resets := rfl

@[simp] theorem hardwareReset_h : (hardwareReset s).h = iv := rfl
@[simp] theorem hardwareReset_buf : (hardwareReset s).buf = [] := rfl
@[simp] theorem hardwareReset_len : (hardwareReset s).len = 0 := rfl
@[simp] theorem hardwareReset_phase : (hardwareReset s).phase = .absorb := rfl
@[simp] theorem hardwareReset_err : (hardwareReset s).err = false := rfl
@[simp] theorem hardwareReset_errcode : (hardwareReset s).errcode = 0 := rfl
@[simp] theorem hardwareReset_port : (hardwareReset s).port = s.port := rfl
@[simp] theorem hardwareReset_resets : (hardwareReset s).resets = s.resets + 1 := rfl

@[simp] theorem compress_h : (compress s).h = compressWords s.h s.blockWords := rfl
@[simp] theorem compress_buf : (compress s).buf = s.buf := rfl
@[simp] theorem compress_len : (compress s).len = s.len := rfl
@[simp] theorem compress_phase : (compress s).phase = s.phase := rfl
@[simp] theorem compress_err : (compress s).err = s.err := rfl
@[simp] theorem compress_errcode : (compress s).errcode = s.errcode := rfl
@[simp] theorem compress_port : (compress s).port = s.port := rfl
@[simp] theorem compress_resets : (compress s).resets = s.resets := rfl

@[simp] theorem storeAtCursor_h (d : Byte) : (storeAtCursor d s).h = s.h := rfl
@[simp] theorem storeAtCursor_buf (d : Byte) : (storeAtCursor d s).buf = s.buf.store s.cur.toNat d := rfl
@[simp] theorem storeAtCursor_len (d : Byte) : (storeAtCursor d s).len = s.len + 1 := rfl
@[simp] theorem storeAtCursor_phase (d : Byte) : (storeAtCursor d s).phase = s.phase := rfl
@[simp] theorem storeAtCursor_err (d : Byte) : (storeAtCursor d s).err = s.err := rfl
@[simp] theorem storeAtCursor_errcode (d : Byte) : (storeAtCursor d s).errcode = s.errcode := rfl
@[simp] theorem storeAtCursor_port (d : Byte) : (storeAtCursor d s).port = s.port := rfl
@[simp] theorem storeAtCursor_resets (d : Byte) : (storeAtCursor d s).resets = s.resets := rfl

@[simp] theorem takeSample_h : (s.takeSample).h = s.h := rfl
@[simp] theorem takeSample_buf : (s.takeSample).buf = s.buf := rfl
@[simp] theorem takeSample_len : (s.takeSample).len = s.len := rfl
@[simp] theorem takeSample_phase : (s.takeSample).phase = s.phase := rfl
@[simp] theorem takeSample_err : (s.takeSample).err = s.err := rfl
@[simp] theorem takeSample_errcode : (s.takeSample).errcode = s.errcode := rfl
@[simp] theorem takeSample_port : (s.takeSample).port = s.port.tail := rfl
@[simp] theorem takeSample_resets : (s.takeSample).resets = s.resets := rfl

@[simp] theorem present_h (w : CmdWord) : (s.present w).h = s.h := rfl
@[simp] theorem present_buf (w : CmdWord) : (s.present w).buf = s.buf := rfl
@[simp] theorem present_len (w : CmdWord) : (s.present w).len = s.len := rfl
@[simp] theorem present_phase (w : CmdWord) : (s.present w).phase = s.phase := rfl
@[simp] theorem present_err (w : CmdWord) : (s.present w).err = s.err := rfl
@[simp] theorem present_errcode (w : CmdWord) : (s.present w).errcode = s.errcode := rfl
@[simp] theorem present_port (w : CmdWord) : (s.present w).port = presentCommand w :: s.port := rfl
@[simp] theorem present_resets (w : CmdWord) : (s.present w).resets = s.resets := rfl

end RecordUpdates

/-- What recording a fault leaves: everything but `ERR` and `ERRCODE`, and those too when `ERR` is already 1
(spec/60_exceptions.md R159). -/
theorem recordFault_eq (c : FaultCause) (s : State) :
    recordFault c s = { s with err := true, errcode := if s.err then s.errcode else faultCode c } := by
  unfold recordFault
  split
  · rename_i h
    cases s
    simp_all
  · rfl

@[simp] theorem recordFault_h (c : FaultCause) (s : State) : (recordFault c s).h = s.h := by rw [recordFault_eq]
@[simp] theorem recordFault_buf (c : FaultCause) (s : State) : (recordFault c s).buf = s.buf := by rw [recordFault_eq]
@[simp] theorem recordFault_len (c : FaultCause) (s : State) : (recordFault c s).len = s.len := by rw [recordFault_eq]
@[simp] theorem recordFault_phase (c : FaultCause) (s : State) : (recordFault c s).phase = s.phase := by
  rw [recordFault_eq]
@[simp] theorem recordFault_err (c : FaultCause) (s : State) : (recordFault c s).err = true := by rw [recordFault_eq]
@[simp] theorem recordFault_errcode (c : FaultCause) (s : State) :
    (recordFault c s).errcode = if s.err then s.errcode else faultCode c := by rw [recordFault_eq]
@[simp] theorem recordFault_port (c : FaultCause) (s : State) : (recordFault c s).port = s.port := by
  rw [recordFault_eq]
@[simp] theorem recordFault_resets (c : FaultCause) (s : State) : (recordFault c s).resets = s.resets := by
  rw [recordFault_eq]

/-- Stores change `BUF` and nothing else. -/
theorem storeAll_eq (l : List (Offset × Byte)) (s : State) :
    storeAll l s = { s with buf := l.foldl (fun m c => m.store c.1.toNat c.2) s.buf } := by
  unfold storeAll
  induction l generalizing s with
  | nil => rfl
  | cons c l ih => rw [List.foldl_cons, ih]; rfl

section Stores
variable (l : List (Offset × Byte)) (s : State)

@[simp] theorem storeAll_h : (storeAll l s).h = s.h := by rw [storeAll_eq]
@[simp] theorem storeAll_len : (storeAll l s).len = s.len := by rw [storeAll_eq]
@[simp] theorem storeAll_phase : (storeAll l s).phase = s.phase := by rw [storeAll_eq]
@[simp] theorem storeAll_err : (storeAll l s).err = s.err := by rw [storeAll_eq]
@[simp] theorem storeAll_errcode : (storeAll l s).errcode = s.errcode := by rw [storeAll_eq]
@[simp] theorem storeAll_port : (storeAll l s).port = s.port := by rw [storeAll_eq]
@[simp] theorem storeAll_resets : (storeAll l s).resets = s.resets := by rw [storeAll_eq]
@[simp] theorem storeAll_nil : storeAll [] s = s := rfl
@[simp] theorem storeAll_cons (c : Offset × Byte) : storeAll (c :: l) s = storeAll l (memWriteByte c.1 c.2 s) := rfl

theorem storeAll_append (l' : List (Offset × Byte)) : storeAll (l ++ l') s = storeAll l' (storeAll l s) := by
  simp [storeAll]

end Stores

section WriteLength
variable (s : State)

theorem writeLength_eq : writeLength s =
    storeAll (wordStores lengthHiIndex (lengthHi s.len) ++ wordStores lengthLoIndex (lengthLo s.len)) s := by
  rw [storeAll_append]; rfl

@[simp] theorem writeLength_h : (writeLength s).h = s.h := by simp [writeLength_eq]
@[simp] theorem writeLength_len : (writeLength s).len = s.len := by simp [writeLength_eq]
@[simp] theorem writeLength_phase : (writeLength s).phase = s.phase := by simp [writeLength_eq]
@[simp] theorem writeLength_err : (writeLength s).err = s.err := by simp [writeLength_eq]
@[simp] theorem writeLength_errcode : (writeLength s).errcode = s.errcode := by simp [writeLength_eq]
@[simp] theorem writeLength_port : (writeLength s).port = s.port := by simp [writeLength_eq]
@[simp] theorem writeLength_resets : (writeLength s).resets = s.resets := by simp [writeLength_eq]

end WriteLength

section Spill
variable (rem : Offset) (s : State)

/-- The spill of the padding changes `H` and `BUF` and nothing else, and neither when one block suffices. -/
theorem spillBlock_eq : spillBlock rem s =
    if needsSecondBlock rem then storeAll freshStores (compress s) else s := rfl

@[simp] theorem spillBlock_len : (spillBlock rem s).len = s.len := by rw [spillBlock_eq]; split <;> simp
@[simp] theorem spillBlock_phase : (spillBlock rem s).phase = s.phase := by rw [spillBlock_eq]; split <;> simp
@[simp] theorem spillBlock_err : (spillBlock rem s).err = s.err := by rw [spillBlock_eq]; split <;> simp
@[simp] theorem spillBlock_errcode : (spillBlock rem s).errcode = s.errcode := by rw [spillBlock_eq]; split <;> simp
@[simp] theorem spillBlock_port : (spillBlock rem s).port = s.port := by rw [spillBlock_eq]; split <;> simp
@[simp] theorem spillBlock_resets : (spillBlock rem s).resets = s.resets := by rw [spillBlock_eq]; split <;> simp

end Spill

section Full
variable (s : State)

/-- The full test changes `H` and nothing else (spec/41_block_buffer.md R90, R91). -/
theorem compressIfFull_eq : compressIfFull s =
    { s with h := if s.cur = 0 then compressWords s.h s.blockWords else s.h } := by
  unfold compressIfFull
  split <;> rfl

@[simp] theorem compressIfFull_h : (compressIfFull s).h =
    if s.cur = 0 then compressWords s.h s.blockWords else s.h := by rw [compressIfFull_eq]
@[simp] theorem compressIfFull_buf : (compressIfFull s).buf = s.buf := by rw [compressIfFull_eq]
@[simp] theorem compressIfFull_len : (compressIfFull s).len = s.len := by rw [compressIfFull_eq]
@[simp] theorem compressIfFull_phase : (compressIfFull s).phase = s.phase := by rw [compressIfFull_eq]
@[simp] theorem compressIfFull_err : (compressIfFull s).err = s.err := by rw [compressIfFull_eq]
@[simp] theorem compressIfFull_errcode : (compressIfFull s).errcode = s.errcode := by rw [compressIfFull_eq]
@[simp] theorem compressIfFull_port : (compressIfFull s).port = s.port := by rw [compressIfFull_eq]
@[simp] theorem compressIfFull_resets : (compressIfFull s).resets = s.resets := by rw [compressIfFull_eq]

end Full

end Sys2Proof.Machine
end

