-- ==== Sys2Proof/Laws/Ops.lean ====
section
/-! SUPPORT. What the shared operations do to the bytes of the block buffer: one lemma per operation, which proofs cite
in place of unfolding it. -/

namespace Sys2Proof.Machine

/-- Only `BUF` and the number of the reset decide what a byte reads as. -/
theorem bufByte_congr {s t : State} (hb : s.buf = t.buf) (hr : s.resets = t.resets) (k : Offset) :
    s.bufByte k = t.bufByte k := by
  unfold State.bufByte
  rw [hb, hr]

section Bytes
variable (s : State) (k : Offset)

@[simp] theorem bufByte_addLen (n : Nat) : (addLen n s).bufByte k = s.bufByte k := rfl
@[simp] theorem bufByte_clearFlags : (clearFlags s).bufByte k = s.bufByte k := rfl
@[simp] theorem bufByte_setDone : (setDone s).bufByte k = s.bufByte k := rfl
@[simp] theorem bufByte_beginDigest : (beginDigest s).bufByte k = s.bufByte k := rfl
@[simp] theorem bufByte_compress : (compress s).bufByte k = s.bufByte k := rfl
@[simp] theorem bufByte_takeSample : s.takeSample.bufByte k = s.bufByte k := rfl
@[simp] theorem bufByte_present (w : CmdWord) : (s.present w).bufByte k = s.bufByte k := rfl
@[simp] theorem bufByte_recordFault (c : FaultCause) : (recordFault c s).bufByte k = s.bufByte k :=
  bufByte_congr (by simp) (by simp) k
@[simp] theorem bufByte_compressIfFull : (compressIfFull s).bufByte k = s.bufByte k :=
  bufByte_congr (by simp) (by simp) k

/-- Read after write, and that a write leaves every other offset alone (spec/20_memory.md R57). -/
@[simp] theorem bufByte_memWriteByte (o : Offset) (v : Byte) :
    (memWriteByte o v s).bufByte k = if o = k then v else s.bufByte k := by
  simp only [State.bufByte, memWriteByte_buf, memWriteByte_resets, Memory.lookup_store, BitVec.toNat_inj]
  split <;> rfl

@[simp] theorem bufByte_storeAtCursor (d : Byte) :
    (storeAtCursor d s).bufByte k = if s.cur = k then d else s.bufByte k := by
  simp [storeAtCursor]

end Bytes

/-- The 64 bytes of the buffer, one by one. -/
@[simp] theorem block_getElem (s : State) (i : Nat) (h : i < 64) :
    s.block[i] = s.bufByte (BitVec.ofNat 6 i) := by
  simp only [State.block, Vector.getElem_ofFn]
  congr 1
  apply BitVec.eq_of_toNat_eq
  simp [Nat.mod_eq_of_lt h]

theorem block_congr {s t : State} (h : ∀ k, s.bufByte k = t.bufByte k) : s.block = t.block := by
  ext i hi
  simp [h]

/-- A byte that no store of a list goes to is left alone. -/
theorem bufByte_storeAll_of_notMem {l : List (Offset × Byte)} {k : Offset} (h : ∀ c ∈ l, c.1 ≠ k) (s : State) :
    (storeAll l s).bufByte k = s.bufByte k := by
  induction l generalizing s with
  | nil => rfl
  | cons c l ih =>
    rw [storeAll_cons, ih (fun d hd => h d (List.mem_cons_of_mem _ hd)), bufByte_memWriteByte,
      if_neg (h c List.mem_cons_self)]

/-- A byte to which a list of stores goes, always with one value. -/
theorem bufByte_storeAll_of_mem {l : List (Offset × Byte)} {k : Offset} {v : Byte} (h : (k, v) ∈ l)
    (hv : ∀ w, (k, w) ∈ l → w = v) (s : State) : (storeAll l s).bufByte k = v := by
  induction l generalizing s with
  | nil => cases h
  | cons c l ih =>
    rw [storeAll_cons]
    by_cases hm : ∃ w, (k, w) ∈ l
    · obtain ⟨w, hw⟩ := hm
      have := hv w (List.mem_cons_of_mem _ hw)
      subst this
      exact ih hw (fun w' hw' => hv w' (List.mem_cons_of_mem _ hw')) _
    · rw [bufByte_storeAll_of_notMem]
      · rcases List.mem_cons.1 h with rfl | h'
        · simp
        · exact absurd ⟨v, h'⟩ hm
      · rintro ⟨o, w⟩ hd rfl
        exact hm ⟨w, hd⟩

theorem mem_zeroStores {lo hi : Nat} (hhi : hi < 64) {k : Offset} {v : Byte} :
    (k, v) ∈ zeroStores lo hi ↔ v = 0 ∧ lo ≤ k.toNat ∧ k.toNat ≤ hi := by
  simp only [zeroStores, List.mem_map, List.mem_range'_1, Prod.mk.injEq]
  constructor
  · rintro ⟨i, ⟨h1, h2⟩, rfl, rfl⟩
    have hlt : i < 2 ^ 6 := by omega
    rw [BitVec.toNat_ofNat, Nat.mod_eq_of_lt hlt]
    exact ⟨rfl, h1, by omega⟩
  · rintro ⟨rfl, h1, h2⟩
    exact ⟨k.toNat, by omega, by simp, rfl⟩

/-- The zero fill of the offsets `lo .. hi` (spec/43_finalizer.md R133, R134). -/
@[simp] theorem bufByte_zeroStores {lo hi : Nat} (hhi : hi < 64) (s : State) (k : Offset) :
    (storeAll (zeroStores lo hi) s).bufByte k = if lo ≤ k.toNat ∧ k.toNat ≤ hi then 0 else s.bufByte k := by
  split
  · rename_i h
    exact bufByte_storeAll_of_mem ((mem_zeroStores hhi).2 ⟨rfl, h⟩) (fun w hw => ((mem_zeroStores hhi).1 hw).1) s
  · rename_i h
    apply bufByte_storeAll_of_notMem
    rintro ⟨o, v⟩ hc rfl
    exact h ((mem_zeroStores hhi).1 hc).2

/-- The buffer after the pad byte and the zero fill (R132, R133). -/
@[simp] theorem bufByte_padStores (rem : Offset) (s : State) (k : Offset) :
    (storeAll (padStores rem) s).bufByte k =
      if k < rem then s.bufByte k else if k = rem then padByte else 0 := by
  have hk := k.isLt
  rw [padStores, storeAll_cons, bufByte_zeroStores (by omega), bufByte_memWriteByte]
  simp only [BitVec.lt_def, ← BitVec.toNat_inj]
  rcases Nat.lt_trichotomy k.toNat rem.toNat with h | h | h
  · rw [if_neg (by omega), if_neg (by omega), if_pos h]
  · rw [if_neg (by omega), if_pos h.symm, if_neg (by omega), if_pos h]
  · rw [if_pos (by omega), if_neg (by omega), if_neg (by omega)]

/-- The buffer at the start of the fresh second block (R134). -/
@[simp] theorem bufByte_freshStores (s : State) (k : Offset) : (storeAll freshStores s).bufByte k = 0 := by
  have hk := k.isLt
  rw [freshStores, bufByte_zeroStores (by omega), if_pos (by omega)]

/-- The offset of byte `j` of word `i`. -/
theorem wordOffset_toNat (i : WordIndex) : (wordOffset i).toNat = 4 * i.toNat := by
  revert i; decide

/-- A word store goes to the four bytes of its word, the most significant first (spec/20_memory.md R57). -/
@[simp] theorem bufByte_memWriteWord (i : WordIndex) (v : Word) (s : State) (k : Offset) :
    (memWriteWord i v s).bufByte k =
      if k.toNat / 4 = i.toNat then byteOfWord v (k.toNat % 4) else s.bufByte k := by
  have hi := i.isLt
  have hk := k.isLt
  have ho := wordOffset_toNat i
  have h1 : (1 : Offset).toNat = 1 := rfl
  have h2 : (2 : Offset).toNat = 2 := rfl
  have h3 : (3 : Offset).toNat = 3 := rfl
  simp only [memWriteWord, wordStores, storeAll_cons, storeAll_nil, bufByte_memWriteByte, ← BitVec.toNat_inj,
    BitVec.toNat_add, h1, h2, h3, ho]
  by_cases h : k.toNat / 4 = i.toNat
  · rw [if_pos h]
    have h4 : k.toNat % 4 = 0 ∨ k.toNat % 4 = 1 ∨ k.toNat % 4 = 2 ∨ k.toNat % 4 = 3 := by omega
    rcases h4 with h4 | h4 | h4 | h4 <;> rw [h4]
    · rw [if_neg (by omega), if_neg (by omega), if_neg (by omega), if_pos (by omega)]
    · rw [if_neg (by omega), if_neg (by omega), if_pos (by omega)]
    · rw [if_neg (by omega), if_pos (by omega)]
    · rw [if_pos (by omega)]
  · rw [if_neg h, if_neg (by omega), if_neg (by omega), if_neg (by omega), if_neg (by omega)]

/-- Byte `j` of the 64-bit length field, the most significant first (spec/20_memory.md R45). -/
def lengthByte (len : Length) (j : Nat) : Byte := (bitLength len).extractLsb' (56 - 8 * j) 8

theorem byteOfWord_lengthHi (len : Length) (j : Nat) (h : j < 4) : byteOfWord (lengthHi len) j = lengthByte len j := by
  apply BitVec.eq_of_getLsbD_eq
  intro n hn
  simp only [byteOfWord, lengthHi, lengthByte, BitVec.getLsbD_extractLsb', hn, decide_true, Bool.true_and]
  rw [decide_eq_true (by omega), Bool.true_and]
  congr 1
  omega

theorem byteOfWord_lengthLo (len : Length) (j : Nat) (h : j < 4) :
    byteOfWord (lengthLo len) j = lengthByte len (4 + j) := by
  apply BitVec.eq_of_getLsbD_eq
  intro n hn
  simp only [byteOfWord, lengthLo, lengthByte, BitVec.getLsbD_extractLsb', hn, decide_true, Bool.true_and]
  rw [decide_eq_true (by omega), Bool.true_and]
  congr 1
  omega

/-- The length field: offsets 56 to 63 hold the bit length, big-endian; the others are left alone (R45, R136). -/
@[simp] theorem bufByte_writeLength (s : State) (k : Offset) :
    (writeLength s).bufByte k = if k.toNat < 56 then s.bufByte k else lengthByte s.len (k.toNat - 56) := by
  have hk := k.isLt
  have h14 : lengthHiIndex.toNat = 14 := rfl
  have h15 : lengthLoIndex.toNat = 15 := rfl
  simp only [writeLength, bufByte_memWriteWord, h14, h15]
  by_cases h : k.toNat < 56
  · rw [if_pos h, if_neg (by omega), if_neg (by omega)]
  · rw [if_neg h]
    by_cases h' : k.toNat < 60
    · rw [if_neg (by omega), if_pos (by omega), byteOfWord_lengthHi _ _ (by omega)]
      congr 1
      omega
    · rw [if_pos (by omega), byteOfWord_lengthLo _ _ (by omega)]
      congr 1
      omega

/-- The words that COMPRESS loads are those of the buffer's 64 bytes (R44, spec/42_compression_core.md R101). -/
theorem blockWords_eq (s : State) : s.blockWords = wordsOfBlock s.block := by
  refine Vector.ext fun i hi => ?_
  have e0 : wordOffset (BitVec.ofFin ⟨i, hi⟩) = BitVec.ofNat 6 (4 * i) := by
    apply BitVec.eq_of_toNat_eq
    rw [wordOffset_toNat, BitVec.toNat_ofNat, Nat.mod_eq_of_lt (by omega)]
    rfl
  have e (j : Nat) : BitVec.ofNat 6 (4 * i) + BitVec.ofNat 6 j = BitVec.ofNat 6 (4 * i + j) :=
    (BitVec.ofNat_add _ _).symm
  simp only [State.blockWords, wordsOfBlock, Vector.getElem_ofFn, memReadWord, block_getElem, e0, ← e]
  rfl

/-- COMPRESS is `H <- C(H, BUF)` (spec/42_compression_core.md R121). -/
theorem compress_h_eq (s : State) : (compress s).h = compressionFunction s.h s.block := by
  rw [compress_h, blockWords_eq]; rfl

end Sys2Proof.Machine
end

