-- ==== Sys2Proof/Laws/Commands.lean ====
section
/-! SUPPORT. What each command and each step can do, said once: the result of `exec` under each test of a command, and
the case analysis of a step. -/

namespace Sys2Proof.Machine

@[simp] theorem cur_toNat (s : State) : s.cur.toNat = s.len.toNat % 64 := by
  simp [State.cur, BitVec.extractLsb'_toNat]

theorem cur_congr {s t : State} (h : s.len = t.len) : s.cur = t.cur := by
  unfold State.cur
  rw [h]

theorem lenMax_toNat : lenMax.toNat = 2 ^ 61 - 1 := rfl

/-- A count that is not at its maximum goes up by exactly one (spec/10_state.md R23). -/
theorem len_succ_toNat {n : Length} (h : n ≠ lenMax) : (n + 1).toNat = n.toNat + 1 := by
  have hlt := n.isLt
  have hne : n.toNat ≠ 2 ^ 61 - 1 := fun e => h (BitVec.eq_of_toNat_eq e)
  have h1 : (1 : Length).toNat = 1 := rfl
  rw [BitVec.toNat_add, h1, Nat.mod_eq_of_lt (by omega)]

/-- The state that FINAL leaves when it does not fault (spec/43_finalizer.md R131). -/
def finalState (s : State) : State :=
  setDone (compress (writeLength (spillBlock s.cur (storeAll (padStores s.cur) s))))

/-- The state that WRITE leaves when it does not fault (spec/41_block_buffer.md R90). -/
def writeState (d : Byte) (s : State) : State := compressIfFull (storeAtCursor d s)

theorem exec_init (s : State) : exec .init s = .next (beginDigest s) := rfl

theorem exec_write_done {s : State} (h : s.phase = .done) (d : Byte) :
    exec (.write d) s = .next (recordFault .reuseAfterFinalize s) := by
  simp [exec, execWrite, h, raise]

theorem exec_write_full {s : State} (h : s.phase = .absorb) (hl : s.len = lenMax) (d : Byte) :
    exec (.write d) s = .next (recordFault .lengthOverflow s) := by
  simp [exec, execWrite, h, hl, raise]

theorem exec_write {s : State} (h : s.phase = .absorb) (hl : s.len ≠ lenMax) (d : Byte) :
    exec (.write d) s = .next (writeState d s) := by
  simp [exec, execWrite, h, hl, writeState]

theorem exec_final_done {s : State} (h : s.phase = .done) :
    exec .final s = .next (recordFault .reuseAfterFinalize s) := by
  simp [exec, execFinal, h, raise]

theorem exec_final {s : State} (h : s.phase = .absorb) : exec .final s = .next (finalState s) := by
  simp [exec, execFinal, h, finalState]

section WriteState
variable (d : Byte) (s : State)

@[simp] theorem writeState_len : (writeState d s).len = s.len + 1 := by simp [writeState]
@[simp] theorem writeState_phase : (writeState d s).phase = s.phase := by simp [writeState]
@[simp] theorem writeState_err : (writeState d s).err = s.err := by simp [writeState]
@[simp] theorem writeState_errcode : (writeState d s).errcode = s.errcode := by simp [writeState]
@[simp] theorem writeState_port : (writeState d s).port = s.port := by simp [writeState]
@[simp] theorem writeState_resets : (writeState d s).resets = s.resets := by simp [writeState]
@[simp] theorem writeState_buf : (writeState d s).buf = s.buf.store s.cur.toNat d := by simp [writeState]

/-- WRITE stores its byte at the cursor and nowhere else. -/
@[simp] theorem bufByte_writeState (k : Offset) :
    (writeState d s).bufByte k = if s.cur = k then d else s.bufByte k := by simp [writeState]

/-- WRITE compresses exactly when it fills the buffer, and then the buffer with its byte in it (R91). -/
theorem writeState_h : (writeState d s).h =
    if (writeState d s).cur = 0 then compressionFunction s.h (writeState d s).block else s.h := by
  have hc : (writeState d s).cur = (storeAtCursor d s).cur := cur_congr (by simp)
  have hb : (writeState d s).block = (storeAtCursor d s).block := block_congr fun k => by simp
  rw [hc, hb]
  simp only [writeState, compressIfFull_h, blockWords_eq, storeAtCursor_h]
  rfl

end WriteState

section FinalState
variable (s : State)

@[simp] theorem finalState_len : (finalState s).len = s.len := by simp [finalState]
@[simp] theorem finalState_phase : (finalState s).phase = .done := by simp [finalState]
@[simp] theorem finalState_err : (finalState s).err = s.err := by simp [finalState]
@[simp] theorem finalState_errcode : (finalState s).errcode = s.errcode := by simp [finalState]
@[simp] theorem finalState_port : (finalState s).port = s.port := by simp [finalState]
@[simp] theorem finalState_resets : (finalState s).resets = s.resets := by simp [finalState]

/-- Byte `k` of the buffer that FINAL leaves, the block compressed last (spec/43_finalizer.md R139). -/
theorem bufByte_finalState (k : Offset) : (finalState s).bufByte k =
    if k.toNat < 56 then
      if needsSecondBlock s.cur then 0
      else if k < s.cur then s.bufByte k else if k = s.cur then padByte else 0
    else lengthByte s.len (k.toNat - 56) := by
  simp only [finalState, bufByte_setDone, bufByte_compress, bufByte_writeLength, spillBlock_len, storeAll_len]
  split
  · rw [spillBlock_eq]
    split <;> simp
  · rfl

/-- The hash state that FINAL leaves: one or two compressions, the last of the buffer it leaves (R134, R137). -/
theorem finalState_h : (finalState s).h =
    compressionFunction
      (if needsSecondBlock s.cur then compressionFunction s.h (storeAll (padStores s.cur) s).block else s.h)
      (finalState s).block := by
  have hb : (finalState s).block =
      (writeLength (spillBlock s.cur (storeAll (padStores s.cur) s))).block := block_congr fun k => rfl
  rw [hb]
  simp only [finalState, setDone_h, compress_h_eq, writeLength_h]
  congr 1
  rw [spillBlock_eq]
  split
  · rw [storeAll_h, compress_h_eq, storeAll_h]
  · simp

end FinalState

/-- Every command completes with a next state. -/
theorem exec_completes (i : Instr) (s : State) : ∃ t, exec i s = .next t := by
  cases i with
  | init => exact ⟨_, rfl⟩
  | write d =>
    simp only [exec, execWrite, raise]
    split
    · exact ⟨_, rfl⟩
    · split <;> exact ⟨_, rfl⟩
  | final =>
    simp only [exec, execFinal, raise]
    split <;> exact ⟨_, rfl⟩

/-- What a command can do (spec/40_init.md R80, R90, R131). -/
theorem exec_cases {i : Instr} {s t : State} (h : exec i s = .next t) :
    (i = .init ∧ t = beginDigest s) ∨
    (∃ d, i = .write d ∧ s.phase = .absorb ∧ s.len ≠ lenMax ∧ t = writeState d s) ∨
    (i = .final ∧ s.phase = .absorb ∧ t = finalState s) ∨
    (∃ d, i = .write d ∧ s.phase = .absorb ∧ s.len = lenMax ∧ t = recordFault .lengthOverflow s) ∨
    (i ≠ .init ∧ s.phase = .done ∧ t = recordFault .reuseAfterFinalize s) := by
  cases hp : s.phase with
  | done =>
    cases i with
    | init => exact .inl ⟨rfl, by simpa [exec_init] using h.symm⟩
    | write d =>
      rw [exec_write_done hp] at h
      exact .inr (.inr (.inr (.inr ⟨by simp, rfl, by simpa using h.symm⟩)))
    | final =>
      rw [exec_final_done hp] at h
      exact .inr (.inr (.inr (.inr ⟨by simp, rfl, by simpa using h.symm⟩)))
  | absorb =>
    cases i with
    | init => exact .inl ⟨rfl, by simpa [exec_init] using h.symm⟩
    | write d =>
      by_cases hl : s.len = lenMax
      · rw [exec_write_full hp hl] at h
        exact .inr (.inr (.inr (.inl ⟨d, rfl, rfl, hl, by simpa using h.symm⟩)))
      · rw [exec_write hp hl] at h
        exact .inr (.inl ⟨d, rfl, rfl, hl, by simpa using h.symm⟩)
    | final =>
      rw [exec_final hp] at h
      exact .inr (.inr (.inl ⟨rfl, rfl, by simpa using h.symm⟩))

section Port
variable (ps : List PortSample) (s : State)

/-- What the host is going to present has no part in any effect of a command. -/
theorem block_withPort : ({ s with port := ps } : State).block = s.block := block_congr fun _ => rfl

theorem writeState_withPort (d : Byte) :
    writeState d { s with port := ps } = { writeState d s with port := ps } := by
  have hb : (writeState d { s with port := ps }).block = (writeState d s).block :=
    block_congr fun k => by simp only [bufByte_writeState]; rfl
  have hc : (writeState d { s with port := ps }).cur = (writeState d s).cur := cur_congr (by simp)
  apply State.ext <;> simp only [writeState_len, writeState_phase, writeState_err, writeState_errcode, writeState_port,
    writeState_resets, writeState_buf]
  · simp only [writeState_h, hb, hc]
  · rfl

theorem finalState_withPort : finalState { s with port := ps } = { finalState s with port := ps } := by
  have hc : ({ s with port := ps } : State).cur = s.cur := rfl
  have hp : ∀ k, (storeAll (padStores s.cur) { s with port := ps }).bufByte k =
      (storeAll (padStores s.cur) s).bufByte k := fun k => by simp only [bufByte_padStores]; rfl
  have hb : (finalState { s with port := ps }).block = (finalState s).block :=
    block_congr fun k => by simp only [bufByte_finalState, hc]; rfl
  apply State.ext <;> simp only [finalState_len, finalState_phase, finalState_err, finalState_errcode, finalState_port,
    finalState_resets]
  · simp only [finalState_h, hb, hc, block_congr hp]
  · simp only [finalState, setDone_buf, compress_buf, writeLength_eq, storeAll_len, spillBlock_len, storeAll_eq _ (spillBlock _ _), hc]
    simp only [spillBlock_eq]
    split <;> simp only [storeAll_eq, compress_buf]

theorem exec_withPort {i : Instr} {s t : State} (h : exec i s = .next t) (ps : List PortSample) :
    exec i { s with port := ps } = .next { t with port := ps } := by
  rcases exec_cases h with ⟨rfl, rfl⟩ | ⟨d, rfl, h1, h2, rfl⟩ | ⟨rfl, h1, rfl⟩ | ⟨d, rfl, h1, h2, rfl⟩ | ⟨h1, h2, rfl⟩
  · rfl
  · rw [← writeState_withPort]
    exact exec_write (s := { s with port := ps }) h1 h2 d
  · rw [← finalState_withPort]
    exact exec_final (s := { s with port := ps }) h1
  · rw [exec_write_full (by exact h1) (by exact h2)]
    simp only [recordFault_eq]
  · cases i with
    | init => exact absurd rfl h1
    | write d =>
      rw [exec_write_done (by exact h2)]
      simp only [recordFault_eq]
    | final =>
      rw [exec_final_done (by exact h2)]
      simp only [recordFault_eq]

/-- No command touches what the host is going to present, nor the number of resets. -/
theorem exec_keeps_port {i : Instr} {s t : State} (h : exec i s = .next t) : t.port = s.port ∧ t.resets = s.resets := by
  rcases exec_cases h with ⟨rfl, rfl⟩ | ⟨d, rfl, h1, h2, rfl⟩ | ⟨rfl, h1, rfl⟩ | ⟨d, rfl, h1, h2, rfl⟩ | ⟨h1, h2, rfl⟩ <;>
    simp

end Port

theorem runCommands_cons {i : Instr} {s t : State} (h : exec i s = .next t) (is : List Instr) :
    runCommands (i :: is) s = runCommands is t := by
  rw [runCommands, h]

theorem runCommands_append {is : List Instr} {s t : State} (h : runCommands is s = .next t) (js : List Instr) :
    runCommands (is ++ js) s = runCommands js t := by
  induction is generalizing s with
  | nil =>
    obtain rfl : s = t := by simpa [runCommands] using h
    rfl
  | cons i is ih =>
    obtain ⟨u, hu⟩ := exec_completes i s
    rw [runCommands_cons hu] at h
    rw [List.cons_append, runCommands_cons hu, ih h]

theorem runSteps_succ {s t : State} (h : step s = .next t) (n : Nat) : runSteps (n + 1) s = runSteps n t := by
  rw [runSteps, h]

theorem runWord_command {w : CmdWord} {i : Instr} (h : decode w = .command i) (s : State) :
    runWord w s = exec i s := by
  unfold runWord
  rw [h]

theorem runWord_illegal {w : CmdWord} {r : Reserved} (h : decode w = .illegal r) (s : State) :
    runWord w s = .next (recordFault .illegalCommand s) := by
  unfold runWord
  rw [h]
  rfl

theorem step_nil {s : State} (h : s.port = []) : step s = .next s := by
  unfold step
  rw [h]

theorem step_cons {s : State} {p : PortSample} {ps : List PortSample} (h : s.port = p :: ps) :
    step s = acceptSample p s.takeSample := by
  unfold step
  rw [h]

/-- What a step can do (spec/30_encoding.md R60, R67, spec/70_reset_and_hazards.md R170). -/
theorem step_cases {s t : State} (h : step s = .next t) :
    (s.port = [] ∧ t = s) ∨
    ∃ p ps, s.port = p :: ps ∧
      ((p.rst = true ∧ t = hardwareReset s.takeSample) ∨
       (p.rst = false ∧ p.valid = false ∧ t = s.takeSample) ∨
       (p.rst = false ∧ p.valid = true ∧ ∃ i, decode p.cmd = .command i ∧ exec i s.takeSample = .next t) ∨
       (p.rst = false ∧ p.valid = true ∧ (∃ r, decode p.cmd = .illegal r) ∧
          t = recordFault .illegalCommand s.takeSample)) := by
  cases hp : s.port with
  | nil => exact .inl ⟨rfl, by simpa [step_nil hp] using h.symm⟩
  | cons p ps =>
    refine .inr ⟨p, ps, rfl, ?_⟩
    rw [step_cons hp] at h
    unfold acceptSample at h
    cases hr : p.rst with
    | true => exact .inl ⟨rfl, by simpa [hr] using h.symm⟩
    | false =>
      cases hv : p.valid with
      | false => exact .inr (.inl ⟨rfl, rfl, by simpa [hr, hv] using h.symm⟩)
      | true =>
        simp only [hr, hv, Bool.false_eq_true, if_false, if_true] at h
        cases hd : decode p.cmd with
        | command i => exact .inr (.inr (.inl ⟨rfl, rfl, i, rfl, by rwa [runWord_command hd] at h⟩))
        | illegal r =>
          rw [runWord_illegal hd] at h
          exact .inr (.inr (.inr ⟨rfl, rfl, ⟨r, rfl⟩, by simpa using h.symm⟩))

/-- Every step completes with a next state. -/
theorem step_completes (s : State) : ∃ t, step s = .next t := by
  cases hp : s.port with
  | nil => exact ⟨_, step_nil hp⟩
  | cons p ps =>
    rw [step_cons hp]
    unfold acceptSample
    split
    · exact ⟨_, rfl⟩
    · split
      · cases hd : decode p.cmd with
        | command i =>
          rw [runWord_command hd]
          exact exec_completes i _
        | illegal r => exact ⟨_, runWord_illegal hd _⟩
      · exact ⟨_, rfl⟩

end Sys2Proof.Machine
end

