-- ==== Sys2Proof/Laws/PerInstr.lean ====
section
/-! SUPPORT. What holds of every command as syntax, one lemma per command. -/

namespace Sys2Proof.Laws

/-- The encoding of the command is one of the 258 command words of the opcode table, and carries its operation code in
`CMD[9:8]` (spec/30_encoding.md R61, R63). -/
def EncodesToCommandWord.Statement : Instr → Prop
  | .init => wordWf (encode .init) = true ∧ opField (encode .init) = 0b00
  | .write d => wordWf (encode (.write d)) = true ∧ opField (encode (.write d)) = 0b01
  | .final => wordWf (encode .final) = true ∧ opField (encode .final) = 0b10

theorem EncodesToCommandWord.init : EncodesToCommandWord.Statement .init := ⟨by decide, by decide⟩

theorem EncodesToCommandWord.write (d : Byte) : EncodesToCommandWord.Statement (.write d) := by
  unfold EncodesToCommandWord.Statement
  revert d
  decide +kernel

theorem EncodesToCommandWord.final : EncodesToCommandWord.Statement .final := ⟨by decide, by decide⟩

end Sys2Proof.Laws
end

