-- ==== Sys2Proof/Tests/Slice0.lean ====
section
/-! SUPPORT. Tests of one step each, on values of the spec (its worked examples and spec/95_test_vectors.md), the smoke test
of the well-formedness checks, and for every obligation with hypotheses a state and operands that meet them. -/

namespace Sys2Proof.Tests

open Sys2Proof.Machine

/-- Does a step answer a next state that passes the check? -/
def nextPasses (r : Result) (check : State → Bool) : Bool :=
  match r with
  | .next t => check t
  | _ => false

/-- The storage that holds the given bytes from offset 0 on. -/
def filled (bytes : List Byte) : Memory := (bytes.zipIdx).map fun p => (p.2, p.1)

/-- The bytes `0, 1, 2, …`, so many. -/
def counting (n : Nat) : List Byte := (List.range n).map (BitVec.ofNat 8)

/-- A state in phase `ABSORB` with this `LEN` and these bytes in `BUF` from offset 0 on, the rest as after reset. -/
def absorbing (len : Length) (bytes : List Byte) : State := { State.reset with len := len, buf := filled bytes }

/-- A state in phase `DONE` with no fault recorded. -/
def finished : State := { State.reset with phase := .done, buf := filled (counting 64) }

/-- The state whose host presents these command words. -/
def presenting (ws : List CmdWord) (s : State) : State := { s with port := ws.map presentCommand }

/-- A digest as the number that its hexadecimal digits spell, `DIGEST[0]` first. -/
def digestNumber (s : State) : Option Nat := s.digest.map fun d => d.toList.foldl (fun n b => 256 * n + b.toNat) 0

/-! ## Well-formedness: each check refuses an ill-formed term -/

theorem test_wf_refuses_init_with_data : wordWf 0x001 = false ∧ wordWf 0x0ff = false := by decide
theorem test_wf_refuses_final_with_data : wordWf 0x201 = false ∧ wordWf 0x2ff = false := by decide
theorem test_wf_refuses_op_11 : wordWf 0x300 = false ∧ wordWf 0x3ab = false := by decide
theorem test_wf_accepts_the_rows : wordWf 0x000 = true ∧ wordWf 0x100 = true ∧ wordWf 0x200 = true := by decide
theorem test_line_wf_refuses_wide_bytes :
    (AsmLine.write 256).wf = false ∧ (AsmLine.update [1, 256]).wf = false ∧ (AsmLine.updateRep 2 256).wf = false := by
  decide

/-! ## Decoding: words written out from the patterns of spec/30_encoding.md section 4 and the encodings of R68 -/

theorem test_decode_init : decode 0b0000000000 = .command .init := by decide
theorem test_decode_write : decode 0b0101100001 = .command (.write 0x61) := by decide
theorem test_decode_write_top_bit : decode 0b0110000000 = .command (.write 0x80) := by decide
theorem test_decode_final : decode 0b1000000000 = .command .final := by decide
theorem test_decode_reserved :
    decode 0b0000000001 = .illegal .initData ∧ decode 0b1000000001 = .illegal .finalData ∧
    decode 0b1100000000 = .illegal .op11 := by decide
theorem test_table_words :
    decodeTableWord 16 0x000 = some .init ∧ decodeTableWord 16 0x1ff = some (.write 0xff) ∧
    decodeTableWord 16 0x200 = some .final ∧ decodeTableWord 16 0x2ff = none ∧ decodeTableWord 16 0x400 = none := by decide

/-! ## The notation (R68, R69): the spec's own examples -/

theorem test_read_write_quoted :
    readLine ['W', 'R', 'I', 'T', 'E', ' ', '\'', 'a', '\''] = some (.write 0x61) := by decide
theorem test_read_update_hex :
    readLine ['U', 'P', 'D', 'A', 'T', 'E', ' ', 'h', 'e', 'x', ':', '6', '1', '6', '2', '6', '3'] =
      readLine ['U', 'P', 'D', 'A', 'T', 'E', ' ', '"', 'a', 'b', 'c', '"'] ∧
    readLine ['U', 'P', 'D', 'A', 'T', 'E', ' ', '"', 'a', 'b', 'c', '"'] = some (.update [0x61, 0x62, 0x63]) := by decide
theorem test_read_repeat_with_comment :
    readLine ['U', 'P', 'D', 'A', 'T', 'E', '_', 'R', 'E', 'P', ' ', '3', ' ', '0', 'x', 'f', 'f', ' ', '#', ' ', 'x'] =
      some (.updateRep 3 0xff) := by decide
theorem test_read_refuses :
    readLine ['W', 'R', 'I', 'T', 'E', ' ', '2', '5', '6'] = none ∧
    readLine ['I', 'N', 'I', 'T', ' ', '0'] = none := by decide
theorem test_assemble_update : assemble [.init, .update [0x61, 0x62], .final] = [0x000, 0x161, 0x162, 0x200] := by decide
theorem test_encoding_text :
    encodingText (encode .init) = ['0', '0', '0'] ∧ encodingText (encode (.write 0x61)) = ['1', '6', '1'] ∧
    encodingText (encode .final) = ['2', '0', '0'] := by decide

/-! ## The word functions: spec/95_test_vectors.md sections 2 and 3 -/

theorem test_rotr :
    rotr 1 0x00000001 = 0x80000000 ∧ rotr 31 0x00000001 = 0x00000002 ∧ rotr 25 0x12345678 = 0x1a2b3c09 ∧
    rotr 6 0x12345678 = 0xe048d159 := by decide
theorem test_shr : shr 3 0x80000000 = 0x10000000 ∧ shr 10 0xffffffff = 0x003fffff := by decide
theorem test_big_sigmas : bigSigma0 0x12345678 = 0x66146474 ∧ bigSigma1 0x12345678 = 0x3561abda := by decide
theorem test_small_sigmas : smallSigma0 0x12345678 = 0xe7fce6ee ∧ smallSigma1 0x12345678 = 0xa1f78649 := by decide
theorem test_ch_maj :
    ch 0x510e527f 0x9b05688c 0x1f83d9ab = 0x1f85c98c ∧ maj 0x6a09e667 0xbb67ae85 0x3c6ef372 = 0x3a6fe667 ∧
    maj 0xffffffff 0x12345678 0x9abcdef0 = 0x9abcdef8 := by decide

/-! ## COMPRESS: spec/95_test_vectors.md sections 4 and 5.1 -/

/-- The block of "abc" after padding. -/
def abcWords : BlockWords := #v[0x61626380, 0, 0, 0, 0, 0, 0, 0, 0, 0, 0, 0, 0, 0, 0, 0x18]

theorem test_schedule_of_abc :
    scheduleAt (schedule abcWords) 18 = 0x7da86405 ∧ scheduleAt (schedule abcWords) 40 = 0x9f47bf94 ∧
    scheduleAt (schedule abcWords) 63 = 0x12b1edeb := by decide +kernel

theorem test_round_zero_of_abc :
    roundT1 (loadWorking iv) 0x428a2f98 0x61626380 = 0x54da50e8 ∧ roundT2 (loadWorking iv) = 0x08909ae5 ∧
    (compressionRound (loadWorking iv) 0x428a2f98 0x61626380).a = 0x5d6aebcd ∧
    (compressionRound (loadWorking iv) 0x428a2f98 0x61626380).e = 0xfa2a4622 := by decide +kernel

theorem test_working_after_63_rounds_of_abc :
    workingAt iv (schedule abcWords) 63 =
      { a := 0xd39a2165, b := 0x04d24d6c, c := 0xb85e2ce9, d := 0xb6ae8fff,
        e := 0xfb121210, f := 0x948d25b6, g := 0x961f4894, h := 0xb21bad3d } := by decide +kernel

theorem test_compress_iv_zero_block :
    compressionFunction iv (Vector.replicate 64 0) =
      #v[0xda5698be, 0x17b9b469, 0x62335799, 0x779fbeca, 0x8ce5d491, 0xc0d26243, 0xbafef9ea, 0x1837a9d8] := by
  decide +kernel

theorem test_compress_all_ones :
    compressionFunction (Vector.replicate 8 0xffffffff) (Vector.replicate 64 0xff) =
      #v[0x0598127a, 0xaf11706e, 0x77401fff, 0xd730c549, 0x0b84c867, 0xa98c6ca3, 0xd7f3c0f9, 0x06a78b79] := by
  decide +kernel

/-! ## INIT: spec/95_test_vectors.md section 8.1 -/

theorem test_init_abandons_garbage :
    nextPasses (exec .init { absorbing 7 [0x67, 0x61, 0x72, 0x62, 0x61, 0x67, 0x65] with h := Vector.replicate 8 1 })
      (fun t => t.h = iv ∧ t.len = 0 ∧ t.bufByte 0 = 0x67 ∧ t.bufByte 6 = 0x65) = true := by decide
theorem test_init_clears_faults_and_reopens :
    nextPasses (step (presenting [0x000] { finished with err := true, errcode := 1 }))
      (fun t => t.phase = .absorb ∧ t.err = false ∧ t.errcode = 0 ∧ t.digest = none) = true := by decide

/-! ## WRITE: spec/95_test_vectors.md section 8.2 -/

theorem test_write_64th_byte_compresses :
    nextPasses (step (presenting [0x13f] (absorbing 63 (counting 63))))
      (fun t => t.len = 64 ∧ t.cur = 0 ∧ t.bufByte 0 = 0x00 ∧ t.bufByte 63 = 0x3f ∧
        t.h = #v[0xfc99a2df, 0x88f42a7a, 0x7bb9d180, 0x33cdc6a2, 0x0256755f, 0x9d5b9a50, 0x44a9cc31, 0x5abe84a7]) =
      true := by decide +kernel
theorem test_write_without_compress :
    nextPasses (step (presenting [0x1ee] (absorbing 64 (counting 64))))
      (fun t => t.len = 65 ∧ t.cur = 1 ∧ t.bufByte 0 = 0xee ∧ t.bufByte 1 = 0x01 ∧ t.h = iv) = true ∧
    nextPasses (exec (.write 0xaa) (absorbing 0x1FFFFFFFFFFFFFFE []))
      (fun t => t.len = 0x1FFFFFFFFFFFFFFF ∧ t.bufByte 62 = 0xaa ∧ t.h = iv ∧ t.err = false) = true := by decide

/-! ## FINAL: programs P1 to P3 and the injected state of spec/95_test_vectors.md section 7 -/

/-- The empty message, "abc", and 55 bytes 0x61. -/
theorem test_final_of_one_block :
    nextPasses (step (presenting [0x200] State.reset)) (fun t => digestNumber t =
      some 0xe3b0c44298fc1c149afbf4c8996fb92427ae41e4649b934ca495991b7852b855) = true ∧
    nextPasses (step (presenting [0x200] (absorbing 3 [0x61, 0x62, 0x63]))) (fun t => digestNumber t =
      some 0xba7816bf8f01cfea414140de5dae2223b00361a396177a9cb410ff61f20015ad ∧
      t.bufByte 3 = 0x80 ∧ t.bufByte 63 = 0x18 ∧ t.len = 3) = true ∧
    nextPasses (exec .final (absorbing 55 (List.replicate 55 0x61))) (fun t => digestNumber t =
      some 0x9f4390f8d30c2dd92ec9f095b65e2b9ae9b0a925a5258e241c9f1e910f734318) = true := by decide +kernel

/-- 56 bytes 0x61, and the injected state at the greatest length. -/
theorem test_final_of_two_blocks :
    nextPasses (exec .final (absorbing 56 (List.replicate 56 0x61))) (fun t => digestNumber t =
      some 0xb35439a4ac6f0948b6d6f9e3c6af0f5f590ce20f1bde7090ef7970686ec6738a) = true ∧
    nextPasses (exec .final (absorbing 0x1FFFFFFFFFFFFFFF (List.replicate 63 0))) (fun t => digestNumber t =
      some 0xfd4b187d978e53ac38a3e4ca1cdb558d9fefb1f75ce00a7fc5f3ed697823ab38) = true := by decide +kernel

theorem test_length_field_at_512_mib :
    lengthHi 0x20000000 = 1 ∧ lengthLo 0x20000000 = 0 ∧ lengthHi 0x1FFFFFFF = 0 ∧ lengthLo 0x1FFFFFFF = 0xfffffff8 := by
  decide

/-! ## Faults: spec/95_test_vectors.md section 8.5, and reset (R170) -/

theorem test_reserved_words_record_code_3 :
    nextPasses (step (presenting [0x001] State.reset)) (fun t => t = { State.reset with err := true, errcode := 3 }) = true ∧
    nextPasses (step (presenting [0x300] State.reset)) (fun t => t.errcode = 3) = true ∧
    nextPasses (step (presenting [0x3ab] finished)) (fun t => t = { finished with err := true, errcode := 3 }) = true := by
  decide
theorem test_write_and_final_after_final :
    nextPasses (step (presenting [0x161] finished)) (fun t => t = { finished with err := true, errcode := 1 }) = true ∧
    nextPasses (step (presenting [0x200] finished)) (fun t => t = { finished with err := true, errcode := 1 }) = true := by
  decide
theorem test_phase_is_tested_before_length :
    nextPasses (step (presenting [0x100] { finished with len := lenMax })) (fun t => t.errcode = 1) = true := by decide
theorem test_length_overflow :
    nextPasses (exec (.write 0) (absorbing 0x1FFFFFFFFFFFFFFF []))
      (fun t => t = { absorbing 0x1FFFFFFFFFFFFFFF [] with err := true, errcode := 2 }) = true := by decide
theorem test_first_fault_wins :
    nextPasses (step (presenting [0x300] { finished with err := true, errcode := 1 }))
      (fun t => t = { finished with err := true, errcode := 1 }) = true := by decide

/-- An edge with `RST = 1` at which a command word is presented too. -/
def resetEdge : PortSample := { rst := true, valid := true, cmd := 0x161 }

theorem test_reset_takes_precedence :
    nextPasses (step { finished with port := [resetEdge] })
      (fun t => t.phase = .absorb ∧ t.len = 0 ∧ t.buf = [] ∧ t.port = []) = true := by decide

/-! ## Witnesses: the hypotheses of each obligation are met -/

/-- The state with one port sample to come. -/
def facing (p : PortSample) (s : State) : State := { s with port := [p] }

/-- A sample without `CMD_VALID` and without `RST`. -/
def idleEdge : PortSample := { rst := false, valid := false, cmd := 0x161 }

theorem witness_DecodingIsTheOpcodeMap :
    (opField 0x000 = 0b00 ∧ dataField 0x000 = 0) ∧ opField 0x1ff = 0b01 ∧ (opField 0x200 = 0b10 ∧ dataField 0x200 = 0) ∧
    (opField 0x0ff = 0b00 ∧ dataField 0x0ff ≠ 0) ∧ (opField 0x201 = 0b10 ∧ dataField 0x201 ≠ 0) ∧ opField 0x3ff = 0b11 := by
  decide

theorem witness_DecodeAndEncodeAgree :
    (Instr.init.wf = true ∧ (Instr.write 0xff).wf = true ∧ Instr.final.wf = true) ∧
    decode 0x1ff = .command (.write 0xff) ∧ wordWf 0x200 = true := by decide

theorem witness_StepRunsThePresentedCommand :
    (presenting [0x161] State.reset).port = [presentCommand 0x161] ∧ decode 0x161 = .command (.write 0x61) := by decide

theorem witness_ReservedWordIsRefused :
    (facing (presentCommand 0x300) finished).port = [presentCommand 0x300] ∧ opField 0x300 = 0b11 ∧
    (facing (presentCommand 0x001) finished).port = [presentCommand 0x001] ∧ opField 0x001 = 0b00 ∧ dataField 0x001 ≠ 0 ∧
    (facing (presentCommand 0x2ff) finished).port = [presentCommand 0x2ff] ∧ opField 0x2ff = 0b10 ∧ dataField 0x2ff ≠ 0 := by
  decide

theorem witness_EngineHoldsStateBetweenCommands :
    State.reset.port = [] ∧ (facing idleEdge finished).port = [idleEdge] ∧ idleEdge.rst = false ∧ idleEdge.valid = false := by
  decide

theorem witness_StepsFoldTheCommandRules :
    ({ State.reset with port := [presentCommand 0x000, presentCommand 0x161, presentCommand 0x200, idleEdge] } : State).port =
      ([Instr.init, .write 0x61, .final].map fun i => presentCommand (encode i)) ++ [idleEdge] := by decide

theorem witness_PseudoCommandsExpandToWrites :
    (AsmLine.update []).wf = true ∧ (AsmLine.update [0, 255]).wf = true ∧ (AsmLine.updateRep 3 255).wf = true := by decide

theorem witness_ResetAndInitLeaveTheInitialValues :
    (facing resetEdge finished).port = [resetEdge] ∧ resetEdge.rst = true := by decide

theorem witness_InitForgetsTheHistory :
    (presenting [0x000, 0x161] { finished with err := true }).port =
      presentCommand (encode .init) :: [presentCommand 0x161] := by decide

theorem witness_WriteFollowsItsRule :
    finished.phase = .done ∧
    ((absorbing lenMax []).phase = .absorb ∧ (absorbing lenMax []).len.toNat = 2 ^ 61 - 1) ∧
    ((absorbing 63 []).phase = .absorb ∧ (absorbing 63 []).len.toNat < 2 ^ 61 - 1) ∧
    ((absorbing 0x1FFFFFFFFFFFFFFE []).len.toNat < 2 ^ 61 - 1) := by decide

/-- At `LEN = 63`, where the write fills the buffer, and at `LEN = 62`, where it does not. -/
theorem witness_BufferIsFullAtOffset63 :
    ((absorbing 63 []).phase = .absorb ∧ (absorbing 63 []).len.toNat < 2 ^ 61 - 1 ∧ (absorbing 63 []).cur = 63 ∧
      ∃ t, exec (.write 0) (absorbing 63 []) = .next t) ∧
    ((absorbing 62 []).cur ≠ 63 ∧ ∃ t, exec (.write 0) (absorbing 62 []) = .next t) :=
  ⟨⟨rfl, by decide, by decide, exec_completes _ _⟩, by decide, exec_completes _ _⟩

/-- Up to the greatest length, and for no byte there. -/
theorem witness_UpdateIsTheWritesOfItsBytes :
    (absorbing 0x1FFFFFFFFFFFFFFD []).phase = .absorb ∧
    (absorbing 0x1FFFFFFFFFFFFFFD []).len.toNat + [(0 : Byte), 1].length ≤ 2 ^ 61 - 1 ∧
    (absorbing lenMax []).len.toNat + ([] : List Byte).length ≤ 2 ^ 61 - 1 := by decide

theorem witness_ChunkingDoesNotMatter :
    (absorbing 62 []).phase = .absorb ∧
    (absorbing 62 []).len.toNat + [[], [(1 : Byte)], [2, 3], []].flatten.length ≤ 2 ^ 61 - 1 := by decide

theorem witness_RotationAndShift : (0 < 1 ∧ 1 < 32) ∧ (0 < 31 ∧ 31 < 32) := by decide

theorem witness_SigmaFunctionsBitByBit : 0 < 32 ∧ 31 < 32 := by decide

theorem witness_MessageScheduleRecurrence : (16 ≤ 16 ∧ 16 < 64) ∧ (16 ≤ 63 ∧ 63 < 64) := by decide

/-- The first and the last round, with the values they have. -/
theorem witness_CompressionIsSixtyFourRounds :
    ∃ (s : HashState) (b : Block) (w : List Word) (v v' : Working) (t1 t2 : Nat), w = schedule (wordsOfBlock b) ∧ 63 < 64 ∧
      v = workingAt s w 63 ∧ v' = workingAt s w (63 + 1) ∧
      t1 = (v.h.toNat + (bigSigma1 v.e).toNat + (ch v.e v.f v.g).toNat + (roundConstants.getD 63 0).toNat +
        (scheduleAt w 63).toNat) % 2 ^ 32 ∧
      t2 = ((bigSigma0 v.a).toNat + (maj v.a v.b v.c).toNat) % 2 ^ 32 :=
  ⟨iv, Vector.replicate 64 0, _, _, _, _, _, rfl, by decide, rfl, rfl, rfl, rfl⟩

/-- In phase `DONE`, and in phase `ABSORB` at `rem` 0, 55, 56 and 63. -/
theorem witness_FinalFollowsItsRule :
    finished.phase = .done ∧ (absorbing 0 []).phase = .absorb ∧ (absorbing 0 []).len.toNat % 64 ≤ 55 ∧
    (absorbing 55 []).len.toNat % 64 ≤ 55 ∧ 56 ≤ (absorbing 56 []).len.toNat % 64 ∧
    56 ≤ (absorbing lenMax []).len.toNat % 64 := by decide

theorem witness_DigestIsTheHashStateBigEndian : State.reset.phase = .absorb ∧ finished.phase = .done := by decide

theorem witness_PaddedMessageIsWholeBlocks :
    ([] : List Byte).length < 2 ^ 61 ∧ (counting 55).length % 64 ≤ 55 ∧ ¬ (counting 56).length % 64 ≤ 55 := by decide

theorem witness_EngineComputesTheMessageDigest : (counting 56).length ≤ 2 ^ 61 - 1 := by decide

theorem witness_FaultEntryKeepsTheFirstFault :
    State.reset.err = false ∧ ({ State.reset with err := true, errcode := 2 } : State).err = true := by decide

theorem witness_ReuseAfterFinalizeIsRefused :
    finished.phase = .done ∧ Instr.write 0 ≠ .init ∧ Instr.final ≠ .init := by decide

theorem witness_LengthOverflowIsRefused :
    (absorbing lenMax []).phase = .absorb ∧ (absorbing lenMax []).len.toNat = 2 ^ 61 - 1 := by decide

/-- A reserved word and a WRITE in phase `DONE` at the greatest length, a FINAL there, a WRITE in phase `ABSORB`. -/
theorem witness_FaultPriority :
    let s := { finished with len := lenMax }
    ((facing (presentCommand 0x3ab) s).port = [presentCommand 0x3ab] ∧ s.err = false ∧ ∃ r, decode 0x3ab = .illegal r) ∧
    (s.phase = .done ∧ (∃ d, decode 0x100 = .command (.write d)) ∧ decode 0x200 = .command .final) ∧
    ((absorbing lenMax []).phase = .absorb ∧ (absorbing lenMax []).err = false ∧ (absorbing lenMax []).len = lenMax) :=
  ⟨⟨rfl, rfl, _, rfl⟩, ⟨rfl, ⟨_, rfl⟩, rfl⟩, rfl, rfl, rfl⟩

theorem witness_RecordedFaultStopsNothing : ∃ t, exec .final (absorbing 56 []) = .next t := exec_completes _ _

/-- Every kind of command, and the last WRITE that a digest may have. -/
theorem witness_LegalSequencesNeverFault :
    State.reset.err = false ∧
    legalFrom State.reset.phase State.reset.len.toNat [.init, .write 1, .final, .init, .write 2, .init, .final] = true ∧
    legalFrom .absorb (2 ^ 61 - 2) [.write 1, .final] = true := by decide

/-- INIT after a recorded fault in phase `DONE` meets each of the three alternatives. -/
theorem witness_OnlyInitOrResetClearsAndReopens :
    ∃ s t : State, step s = .next t ∧ (s.err = true ∧ t.err = false) ∧ (s.errcode ≠ 0 ∧ t.errcode = 0) ∧
      (s.phase = .done ∧ t.phase = .absorb) :=
  ⟨presenting [0x000] { finished with err := true, errcode := 1 }, beginDigest { finished with err := true, errcode := 1 },
    rfl, by decide, by decide, by decide⟩

theorem witness_FinishedDigestIsImmutable :
    finished.phase = .done ∧ finished.port = [] ∧ beginsDigest idleEdge = false ∧ beginsDigest (presentCommand 0x161) = false := by
  decide

theorem witness_LengthCountsTheAbsorbedBytes :
    ∃ t, (facing (presentCommand 0x161) (absorbing 63 [])).port = [presentCommand 0x161] ∧
      step (facing (presentCommand 0x161) (absorbing 63 [])) = .next t :=
  ⟨_, rfl, rfl⟩

/-- INIT; a WRITE that fills the buffer; FINAL at `rem` 55 and 56; FINAL in phase `DONE`. -/
theorem witness_HashStateChangesByCompressionAlone :
    beginsDigest (presentCommand 0x000) = true ∧ beginsDigest resetEdge = true ∧
    (beginsDigest (presentCommand 0x161) = false ∧ acceptsFinal (presentCommand 0x161) = false ∧
      (∃ t, step (facing (presentCommand 0x161) (absorbing 63 [])) = .next t)) ∧
    (acceptsFinal (presentCommand 0x200) = true ∧
      ((absorbing 55 []).phase = .absorb ∧ (absorbing 55 []).len.toNat % 64 ≤ 55 ∧
        ∃ t, step (facing (presentCommand 0x200) (absorbing 55 [])) = .next t) ∧
      ((absorbing 56 []).phase = .absorb ∧ 56 ≤ (absorbing 56 []).len.toNat % 64 ∧
        ∃ t, step (facing (presentCommand 0x200) (absorbing 56 [])) = .next t) ∧
      (finished.phase = .done ∧ ∃ t, step (facing (presentCommand 0x200) finished) = .next t)) := by
  refine ⟨by decide, by decide, ⟨by decide, by decide, _, rfl⟩, by decide, ⟨by decide, by decide, _, rfl⟩,
    ⟨by decide, by decide, _, rfl⟩, by decide, _, rfl⟩

/-- A state in phase `ABSORB` whose partial block is as long as one can be, and a state in phase `DONE`; each takes a step. -/
theorem witness_StepKeepsTheInvariant :
    (facing (presentCommand 0x13f) (absorbing 63 (counting 63))).Inv ∧
    (∃ t, step (facing (presentCommand 0x13f) (absorbing 63 (counting 63))) = .next t) ∧
    (facing (presentCommand 0x200) finished).Inv ∧ ∃ t, step (facing (presentCommand 0x200) finished) = .next t :=
  ⟨⟨by decide, by decide, by decide +kernel⟩, ⟨_, rfl⟩, ⟨by decide, by decide, by decide +kernel⟩, _, rfl⟩

/-- At `CUR = 63`, and at `CUR = 0` with nothing written. -/
theorem witness_CompressedBlocksAreWritten :
    ((absorbing 63 (counting 63)).Inv ∧ (absorbing 63 (counting 63)).phase = .absorb ∧ (absorbing 63 (counting 63)).cur = 63) ∧
    (State.reset.Inv ∧ State.reset.phase = .absorb) :=
  ⟨⟨⟨by decide, by decide, by decide +kernel⟩, rfl, by decide⟩, ⟨⟨by decide, by decide, by decide +kernel⟩, rfl⟩⟩

/-- The state that has absorbed the given number of zero bytes. -/
def absorbedZeros (n : Nat) : State :=
  { absorbing (BitVec.ofNat 61 n) (List.replicate 63 0) with h := hashBlocks (List.replicate n 0) (n / 64) }

/-- For every message of zero bytes up to the greatest length some state has absorbed it. -/
theorem absorbedZeros_absorbed (n : Nat) (h : n < 2 ^ 61) : (absorbedZeros n).Absorbed (List.replicate n 0) := by
  have hlen : (absorbedZeros n).len.toNat = n := by
    show (BitVec.ofNat 61 n).toNat = n
    rw [BitVec.toNat_ofNat, Nat.mod_eq_of_lt h]
  refine ⟨rfl, by rw [hlen, List.length_replicate], fun k hk => ?_, by rw [List.length_replicate]; rfl⟩
  have hcur := cur_toNat (absorbedZeros n)
  rw [hlen] at hcur
  have hk' : k.toNat < n % 64 := by rw [← hcur]; exact hk
  have hbyte : ∀ k : Offset, k.toNat < 63 → (filled (List.replicate 63 0)).lookup k.toNat = some 0 := by decide +kernel
  have hb : (absorbedZeros n).bufByte k = 0 := by
    show ((filled (List.replicate 63 0)).lookup k.toNat).getD _ = 0
    rw [hbyte k (by omega)]
    rfl
  rw [hb, List.getElem?_replicate, if_pos (by rw [List.length_replicate, hcur]; omega)]

/-- A message that may grow, one of the greatest length, and a reserved word. -/
theorem witness_MessageInvariantHolds :
    (∃ t, exec .init finished = .next t) ∧
    ((absorbedZeros 63).Absorbed (List.replicate 63 0) ∧ (List.replicate 63 (0 : Byte)).length < 2 ^ 61 - 1) ∧
    (∃ (s t : State) (m : List Byte), s.Absorbed m ∧ m.length = 2 ^ 61 - 1 ∧ exec (.write 0) s = .next t) ∧
    (∃ (s t : State) (m : List Byte), s.Absorbed m ∧ decode 0x300 = .illegal .op11 ∧ runWord 0x300 s = .next t) :=
  ⟨⟨_, rfl⟩, ⟨absorbedZeros_absorbed 63 (by decide), by decide⟩,
    ⟨absorbedZeros (2 ^ 61 - 1), (exec_completes _ _).choose, List.replicate (2 ^ 61 - 1) 0,
      absorbedZeros_absorbed _ (by decide), List.length_replicate, (exec_completes _ _).choose_spec⟩,
    ⟨absorbedZeros 0, _, _, absorbedZeros_absorbed 0 (by decide), by decide, rfl⟩⟩

/-- Two states in phase `ABSORB` that differ in a stale byte, and two in phase `DONE` that differ in every byte. -/
theorem witness_StaleBytesAreUnobservable :
    (absorbing 1 [7, 8]).Agree (absorbing 1 [7, 9]) ∧ absorbing 1 [7, 8] ≠ absorbing 1 [7, 9] ∧
    (absorbing 1 [7, 8]).port = (absorbing 1 [7, 9]).port ∧
    finished.Agree { finished with buf := [] } ∧ finished ≠ { finished with buf := [] } :=
  ⟨⟨rfl, rfl, rfl, rfl, rfl, fun _ => by decide +kernel⟩, by decide, rfl,
    ⟨rfl, rfl, rfl, rfl, rfl, fun h => nomatch h⟩, by decide⟩

theorem witness_EnginesAreIndependent :
    ([presenting [0x161] State.reset, presenting [0x178] State.reset] : Engines)[1]? =
      some (presenting [0x178] State.reset) := rfl

end Sys2Proof.Tests
end

section
/-! Reset and INIT (spec/10_state.md R37): both are `beginDigest`, and `beginDigest` leaves the initial values. -/

namespace Sys2Proof.Machine

/-- The cursor follows the counter (spec/10_state.md R24). -/
theorem cur_eq_zero_of_len_eq_zero {s : State} (h : s.len = 0) : s.cur = 0 := by
  apply BitVec.eq_of_toNat_eq
  rw [cur_toNat, h]
  rfl

theorem beginDigest_initialValues (s : State) : (beginDigest s).initialValues :=
  ⟨beginDigest_h s, beginDigest_len s, cur_eq_zero_of_len_eq_zero (beginDigest_len s), beginDigest_phase s,
    beginDigest_err s, beginDigest_errcode s⟩

theorem hardwareReset_initialValues (s : State) : (hardwareReset s).initialValues := beginDigest_initialValues _

/-- The state after reset is a fixed point of the start of a computation. -/
theorem beginDigest_reset : beginDigest State.reset = State.reset := rfl

theorem reset_initialValues : State.reset.initialValues := by
  rw [← beginDigest_reset]
  exact beginDigest_initialValues State.reset

/-- An edge with `RST = 1` resets the engine, whatever else it presents (spec/70_reset_and_hazards.md R170). -/
theorem step_of_rst {s : State} {p : PortSample} {ps : List PortSample} (hp : s.port = p :: ps) (hr : p.rst = true) :
    step s = .next (hardwareReset s.takeSample) := by
  rw [step_cons hp, acceptSample, if_pos hr]

/-- Settles O10: the reset state, a reset edge and INIT each leave the values of `beginDigest`. -/
theorem resetAndInitLeaveTheInitialValues : Obligations.ResetAndInitLeaveTheInitialValues := by
  refine ⟨reset_initialValues, fun s p ps hp hr => ?resetEdge, fun s => ?init⟩
  case resetEdge =>
    have hport : (hardwareReset s.takeSample).port = ps := by
      rw [hardwareReset_port, takeSample_port, hp, List.tail_cons]
    exact ⟨_, step_of_rst hp hr, hardwareReset_initialValues _, hport⟩
  case init => exact ⟨_, exec_init s, beginDigest_initialValues s⟩

end Sys2Proof.Machine
end

section
/-! The command word (spec/30_encoding.md R61 to R67): its two fields, the decoder's clauses, and the agreement of decoder,
encoder and opcode table. -/

namespace Sys2Proof

section Fields
variable (op : BitVec 2) (d : Byte) (w : CmdWord)

@[simp] theorem opField_cmd10 : opField (cmd10 op d) = op := BitVec.extractLsb'_append_eq_left

@[simp] theorem dataField_cmd10 : dataField (cmd10 op d) = d := BitVec.extractLsb'_append_eq_right

/-- A command word is its two fields (R61). -/
@[simp] theorem cmd10_opField_dataField : cmd10 (opField w) (dataField w) = w := by
  have hjoin : opField w ++ dataField w = w.extractLsb' 0 (2 + 8) :=
    BitVec.extractLsb'_append_extractLsb'_eq_extractLsb' (by rfl)
  rw [cmd10, hjoin, BitVec.extractLsb'_eq_self]

theorem cmd10_toNat : (cmd10 op d).toNat = 256 * op.toNat + d.toNat := by
  rw [cmd10, BitVec.toNat_append, ← Nat.shiftLeft_add_eq_or_of_lt d.isLt, Nat.shiftLeft_eq]
  omega

end Fields

theorem eq_cmd10 {w : CmdWord} {op : BitVec 2} {d : Byte} (hop : opField w = op) (hd : dataField w = d) :
    w = cmd10 op d := by
  rw [← hop, ← hd, cmd10_opField_dataField]

section Clauses
variable {w : CmdWord}

theorem decode_eq_init (hop : opField w = 0b00) (hd : dataField w = 0) : decode w = .command .init := by
  simp [decode, hop, hd]

theorem decode_eq_write (hop : opField w = 0b01) : decode w = .command (.write (dataField w)) := by
  simp [decode, hop]

theorem decode_eq_final (hop : opField w = 0b10) (hd : dataField w = 0) : decode w = .command .final := by
  simp [decode, hop, hd]

theorem decode_eq_initData (hop : opField w = 0b00) (hd : dataField w ≠ 0) : decode w = .illegal .initData := by
  simpa [decode, reservedReason, hop] using hd

theorem decode_eq_finalData (hop : opField w = 0b10) (hd : dataField w ≠ 0) : decode w = .illegal .finalData := by
  simpa [decode, reservedReason, hop] using hd

theorem decode_eq_op11 (hop : opField w = 0b11) : decode w = .illegal .op11 := by
  simp [decode, reservedReason, hop]

end Clauses

@[simp] theorem decode_encode (i : Instr) : decode (encode i) = .command i := by
  cases i with
  | init => exact decode_eq_init (opField_cmd10 ..) (dataField_cmd10 ..)
  | write d => rw [encode, decode_eq_write (opField_cmd10 ..), dataField_cmd10]
  | final => exact decode_eq_final (opField_cmd10 ..) (dataField_cmd10 ..)

/-- A word that decodes to a command carries that command's fields and nothing else, so the encoder rebuilds it (R63). -/
theorem encode_of_decode {w : CmdWord} {i : Instr} (h : decode w = .command i) : encode i = w := by
  simp only [decode] at h
  split_ifs at h with hinit hwrite hfinal
  · obtain ⟨hop, hd⟩ := hinit
    cases h
    exact (eq_cmd10 hop hd).symm
  · cases h
    exact (eq_cmd10 hwrite rfl).symm
  · obtain ⟨hop, hd⟩ := hfinal
    cases h
    exact (eq_cmd10 hop hd).symm

theorem decode_eq_command_iff {w : CmdWord} {i : Instr} : decode w = .command i ↔ encode i = w :=
  ⟨encode_of_decode, fun h => h ▸ decode_encode i⟩

/-- A row whose mask covers all ten bits, as those of INIT and FINAL do, has one word. -/
theorem matchesRow_fullMask (m w : CmdWord) : matchesRow m 0x3FF w = true ↔ w = m := by
  have hmask : (0x3FF : CmdWord) = BitVec.allOnes 10 := rfl
  rw [matchesRow, beq_iff_eq, hmask, BitVec.and_allOnes]

/-- A row whose mask covers `CMD[9:8]` alone, as that of WRITE does, fixes the operation code and no data. -/
theorem matchesRow_opMask (op : BitVec 2) (w : CmdWord) :
    matchesRow (cmd10 op 0) 0x300 w = true ↔ opField w = op := by
  have hmask : (0x300 : CmdWord) = cmd10 (BitVec.allOnes 2) 0 := rfl
  have hand : w &&& 0x300 = cmd10 (opField w) 0 := by
    calc w &&& 0x300 = cmd10 (opField w) (dataField w) &&& cmd10 (BitVec.allOnes 2) 0 := by
          rw [cmd10_opField_dataField, hmask]
      _ = cmd10 (opField w &&& BitVec.allOnes 2) (dataField w &&& 0) := BitVec.and_append
      _ = cmd10 (opField w) 0 := congrArg₂ cmd10 BitVec.and_allOnes BitVec.and_zero
  rw [matchesRow, beq_iff_eq, hand]
  exact ⟨fun h => by simpa using congrArg opField h, fun h => by rw [h]⟩

/-- The rows of the opcode table, read by match and mask, are the encodings of the three commands (R63). -/
theorem wordWf_iff_exists_encode (w : CmdWord) : wordWf w = true ↔ ∃ i, encode i = w := by
  have hwrite : matchesRow 0x100 0x300 w = true ↔ opField w = 0b01 := matchesRow_opMask 0b01 w
  rw [wordWf, Bool.or_eq_true, Bool.or_eq_true, matchesRow_fullMask, hwrite, matchesRow_fullMask]
  constructor
  · rintro ((rfl | hop) | rfl)
    · exact ⟨.init, rfl⟩
    · exact ⟨.write (dataField w), (eq_cmd10 hop rfl).symm⟩
    · exact ⟨.final, rfl⟩
  · rintro ⟨i, rfl⟩
    cases i with
    | init => exact .inl (.inl rfl)
    | write d => exact .inl (.inr (opField_cmd10 0b01 d))
    | final => exact .inr rfl

theorem wordWf_iff_decodes (w : CmdWord) : wordWf w = true ↔ ∃ i, decode w = .command i := by
  simp only [decode_eq_command_iff, wordWf_iff_exists_encode]

/-- The command words by number: 1 INIT, 256 WRITE, 1 FINAL (R63). -/
theorem filter_wordWf_range :
    ((List.range 1024).filter fun n => wordWf (BitVec.ofNat 10 n)) = 0x000 :: List.range' 0x100 256 ++ [0x200] := by
  decide +kernel

theorem count_command_words : ((List.range 1024).filter fun n => wordWf (BitVec.ofNat 10 n)).length = 258 := by
  rw [filter_wordWf_range, List.length_append, List.length_cons, List.length_range']
  rfl

/-- The reserved words are the rest of the 1024 (R63). -/
theorem count_reserved_words : ((List.range 1024).filter fun n => !wordWf (BitVec.ofNat 10 n)).length = 766 := by
  have hsplit := List.length_eq_length_filter_add (l := List.range 1024) fun n => wordWf (BitVec.ofNat 10 n)
  rw [List.length_range, count_command_words] at hsplit
  omega

/-- Settles O3: the fields of a word determine it, so decoder and encoder undo each other; the table's rows are the
encodings; the 258 command words are listed by number, and the rest are reserved. -/
theorem decodeAndEncodeAgree : Obligations.DecodeAndEncodeAgree := by
  have hwrite (d : Byte) : (encode (.write d)).toNat = 0x100 + d.toNat := cmd10_toNat 0b01 d
  exact ⟨fun i _ => decode_encode i, fun _ _ => encode_of_decode, wordWf_iff_decodes, rfl, hwrite, rfl,
    count_command_words, count_reserved_words⟩

/-- Settles O2, one clause of the decoder at a time. -/
theorem decodingIsTheOpcodeMap : Obligations.DecodingIsTheOpcodeMap :=
  ⟨fun _ => decode_eq_init, fun _ => decode_eq_write, fun _ => decode_eq_final, fun _ => decode_eq_initData,
    fun _ => decode_eq_finalData, fun _ => decode_eq_op11⟩

end Sys2Proof
end

section
/-! A presented word (spec/30_encoding.md R60), and the reserved words (spec/60_exceptions.md R151). -/

namespace Sys2Proof.Machine

theorem takeSample_of_port {s : State} {p : PortSample} {ps : List PortSample} (hp : s.port = p :: ps) :
    s.takeSample = { s with port := ps } := by
  rw [State.takeSample, hp, List.tail_cons]

/-- A step runs the word that its next sample presents (R60). -/
theorem step_of_presentCommand {s : State} {w : CmdWord} {ps : List PortSample} (hp : s.port = presentCommand w :: ps) :
    step s = runWord w { s with port := ps } := by
  rw [step_cons hp, takeSample_of_port hp]
  rfl

/-- The words of R64 and R65 are reserved. -/
theorem decode_illegal_of_reserved {w : CmdWord}
    (h : opField w = 0b11 ∨ (opField w = 0b00 ∧ dataField w ≠ 0) ∨ (opField w = 0b10 ∧ dataField w ≠ 0)) :
    ∃ r, decode w = .illegal r := by
  rcases h with hop | ⟨hop, hd⟩ | ⟨hop, hd⟩
  · exact ⟨_, decode_eq_op11 hop⟩
  · exact ⟨_, decode_eq_initData hop hd⟩
  · exact ⟨_, decode_eq_finalData hop hd⟩

/-- Settles O5: the word decodes to `ILLEGAL`, and what is left to do is to record the fault. -/
theorem reservedWordIsRefused : Obligations.ReservedWordIsRefused := by
  intro s w ps hp hreserved
  obtain ⟨r, hr⟩ := decode_illegal_of_reserved hreserved
  rw [step_of_presentCommand hp, runWord_illegal hr, recordFault_eq]
  rfl

end Sys2Proof.Machine
end

section
/-! Two engines that agree (spec/10_state.md R33, spec/40_init.md R82): every operation, and so every run, takes engines that
cannot be told apart to engines that cannot be told apart. -/

namespace Sys2Proof.Machine

/-- The cursor after a WRITE that does not fault, modulo 64 (spec/10_state.md R24). -/
@[simp] theorem writeState_cur (d : Byte) (s : State) : (writeState d s).cur = s.cur + 1 := by
  have hone : (1 : Length).toNat = 1 := rfl
  have hone' : (1 : Offset).toNat = 1 := rfl
  apply BitVec.eq_of_toNat_eq
  rw [cur_toNat, writeState_len, BitVec.toNat_add, BitVec.toNat_add, cur_toNat, hone, hone']
  omega

/-- Engines at the start of a computation agree, whatever came before: no byte of `BUF` counts while the cursor is 0. -/
theorem agree_of_initialValues {s t : State} (hs : s.initialValues) (ht : t.initialValues) : s.Agree t := by
  obtain ⟨hsh, hslen, hscur, hsphase, hserr, hserrcode⟩ := hs
  obtain ⟨hth, htlen, -, htphase, hterr, hterrcode⟩ := ht
  refine ⟨hsh.trans hth.symm, hslen.trans htlen.symm, hsphase.trans htphase.symm, hserr.trans hterr.symm,
    hserrcode.trans hterrcode.symm, fun _ k hk => ?_⟩
  rw [hscur] at hk
  exact absurd hk BitVec.not_lt_zero

section Agree
variable {s t : State} (h : s.Agree t)
include h

/-- The samples still to come take no part in agreement. -/
theorem agree_takeSample : s.takeSample.Agree t.takeSample :=
  ⟨h.h, h.len, h.phase, h.err, h.errcode, h.buf⟩

theorem agree_recordFault (c : FaultCause) : (recordFault c s).Agree (recordFault c t) where
  h := by simp [h.h]
  len := by simp [h.len]
  phase := by simp [h.phase]
  err := by simp
  errcode := by simp [h.err, h.errcode]
  buf hphase k hk := by
    rw [recordFault_phase] at hphase
    rw [cur_congr (recordFault_len c s)] at hk
    simpa using h.buf hphase k hk

/-- A WRITE makes the byte at the cursor agree too. -/
theorem bufByte_writeState_congr (hphase : s.phase = .absorb) (d : Byte) {k : Offset} (hk : k ≤ s.cur) :
    (writeState d s).bufByte k = (writeState d t).bufByte k := by
  rw [bufByte_writeState, bufByte_writeState, ← cur_congr h.len]
  split
  · rfl
  · next hne => exact h.buf hphase k (BitVec.lt_of_le_ne hk (Ne.symm hne))

/-- A WRITE compresses only a block of which every byte agrees. -/
theorem agree_writeState (hphase : s.phase = .absorb) (d : Byte) : (writeState d s).Agree (writeState d t) where
  h := by
    rw [writeState_h, writeState_h, writeState_cur, writeState_cur, ← cur_congr h.len, ← h.h]
    split
    · next hfull =>
      have hblock : (writeState d s).block = (writeState d t).block :=
        block_congr fun k => bufByte_writeState_congr h hphase d (by bv_omega)
      rw [hblock]
    · rfl
  len := by simp [h.len]
  phase := by simp [h.phase]
  err := by simp [h.err]
  errcode := by simp [h.errcode]
  buf _ k hk := by
    rw [writeState_cur] at hk
    exact bufByte_writeState_congr h hphase d (by bv_omega)

/-- FINAL overwrites every byte from the cursor on, and those below it agree (spec/43_finalizer.md R132, R133). -/
theorem agree_finalState (hphase : s.phase = .absorb) : (finalState s).Agree (finalState t) where
  h := by
    have hpad : (storeAll (padStores s.cur) s).block = (storeAll (padStores s.cur) t).block :=
      block_congr fun k => by
        rw [bufByte_padStores, bufByte_padStores]
        exact ite_congr rfl (h.buf hphase k) fun _ => rfl
    have hlast : (finalState s).block = (finalState t).block :=
      block_congr fun k => by
        rw [bufByte_finalState, bufByte_finalState, ← cur_congr h.len, ← h.len]
        exact ite_congr rfl
          (fun _ => ite_congr rfl (fun _ => rfl) fun _ => ite_congr rfl (h.buf hphase k) fun _ => rfl) fun _ => rfl
    rw [finalState_h, finalState_h, ← cur_congr h.len, ← h.h, hpad, hlast]
  len := by simp [h.len]
  phase := by simp
  err := by simp [h.err]
  errcode := by simp [h.errcode]
  buf hdone := by simp at hdone

/-- The output signals show nothing of `BUF` (spec/30_encoding.md R60). -/
theorem outputs_eq_of_agree : s.outputs = t.outputs := by
  simp only [State.outputs, h.h, h.phase, h.err, h.errcode]

theorem digest_eq_of_agree : s.digest = t.digest := by
  simp only [State.digest, h.h, h.phase]

end Agree

/-- The operation takes two engines that agree and face the same samples to two such engines. -/
def KeepsAgreement (f : State → Result) : Prop :=
  ∀ ⦃s t : State⦄, s.Agree t → s.port = t.port →
    ∃ u v, f s = .next u ∧ f t = .next v ∧ u.Agree v ∧ u.port = v.port

theorem keepsAgreement_raise (c : FaultCause) : KeepsAgreement (raise c) := fun s t h hport =>
  ⟨recordFault c s, recordFault c t, rfl, rfl, agree_recordFault h c, by simp [hport]⟩

theorem keepsAgreement_write (d : Byte) : KeepsAgreement (exec (.write d)) := by
  intro s t h hport
  cases hphase : s.phase with
  | done =>
    rw [exec_write_done hphase, exec_write_done (h.phase ▸ hphase)]
    exact keepsAgreement_raise _ h hport
  | absorb =>
    have hphase' : t.phase = .absorb := h.phase ▸ hphase
    by_cases hlen : s.len = lenMax
    · rw [exec_write_full hphase hlen, exec_write_full hphase' (h.len ▸ hlen)]
      exact keepsAgreement_raise _ h hport
    · exact ⟨_, _, exec_write hphase hlen d, exec_write hphase' (h.len ▸ hlen) d, agree_writeState h hphase d,
        by simp [hport]⟩

theorem keepsAgreement_final : KeepsAgreement (exec .final) := by
  intro s t h hport
  cases hphase : s.phase with
  | done =>
    rw [exec_final_done hphase, exec_final_done (h.phase ▸ hphase)]
    exact keepsAgreement_raise _ h hport
  | absorb =>
    exact ⟨_, _, exec_final hphase, exec_final (h.phase ▸ hphase), agree_finalState h hphase, by simp [hport]⟩

/-- INIT makes any two engines agree. -/
theorem agree_beginDigest (s t : State) : (beginDigest s).Agree (beginDigest t) :=
  agree_of_initialValues (beginDigest_initialValues s) (beginDigest_initialValues t)

theorem keepsAgreement_exec (i : Instr) : KeepsAgreement (exec i) := by
  cases i with
  | init => exact fun s t _ hport => ⟨_, _, exec_init s, exec_init t, agree_beginDigest s t, hport⟩
  | write d => exact keepsAgreement_write d
  | final => exact keepsAgreement_final

theorem keepsAgreement_runWord (w : CmdWord) : KeepsAgreement (runWord w) := by
  intro s t h hport
  cases hw : decode w with
  | command i =>
    rw [runWord_command hw, runWord_command hw]
    exact keepsAgreement_exec i h hport
  | illegal r =>
    rw [runWord_illegal hw, runWord_illegal hw]
    exact keepsAgreement_raise _ h hport

theorem keepsAgreement_acceptSample (p : PortSample) : KeepsAgreement (acceptSample p) := by
  intro s t h hport
  unfold acceptSample
  split_ifs
  · exact ⟨_, _, rfl, rfl,
      agree_of_initialValues (hardwareReset_initialValues s) (hardwareReset_initialValues t), hport⟩
  · exact keepsAgreement_runWord _ h hport
  · exact ⟨s, t, rfl, rfl, h, hport⟩

theorem keepsAgreement_step : KeepsAgreement step := by
  intro s t h hport
  cases hs : s.port with
  | nil => exact ⟨s, t, step_nil hs, step_nil (hport ▸ hs), h, hport⟩
  | cons p ps =>
    rw [step_cons hs, step_cons (hport ▸ hs)]
    exact keepsAgreement_acceptSample p (agree_takeSample h) (by simp [hport])

theorem keepsAgreement_runSteps (n : Nat) : KeepsAgreement (runSteps n) := by
  induction n with
  | zero => exact fun s t h hport => ⟨s, t, rfl, rfl, h, hport⟩
  | succ n ih =>
    intro s t h hport
    obtain ⟨u, v, hu, hv, huv, hport'⟩ := keepsAgreement_step h hport
    rw [runSteps_succ hu, runSteps_succ hv]
    exact ih huv hport'

end Sys2Proof.Machine
end

section
/-! INIT (spec/40_init.md R80 to R82): what it leaves, and that nothing before it shows in any later output. -/

namespace Sys2Proof.Machine

/-- The step that accepts a presented INIT starts a computation. -/
theorem step_of_presentInit {s : State} {ps : List PortSample} (hp : s.port = presentCommand (encode .init) :: ps) :
    step s = .next (beginDigest { s with port := ps }) := by
  rw [step_of_presentCommand hp, runWord_command (decode_encode .init), exec_init]

/-- Settles O13: after INIT the engine agrees with one in the reset state, and every further step keeps the agreement. -/
theorem initForgetsTheHistory : Obligations.InitForgetsTheHistory := by
  intro s ps n hp
  have hagree : (beginDigest { s with port := ps }).Agree { State.reset with port := ps } :=
    agree_of_initialValues (beginDigest_initialValues _) reset_initialValues
  obtain ⟨u, v, hu, hv, huv, -⟩ := keepsAgreement_runSteps n hagree rfl
  rw [runSteps_succ (step_of_presentInit hp)]
  exact ⟨u, v, hu, hv, outputs_eq_of_agree huv, digest_eq_of_agree huv⟩

/-- Settles O11: INIT is `beginDigest`, which leaves the initial values and touches neither `BUF` nor the model's own
fields. -/
theorem initStartsANewDigest : Obligations.InitStartsANewDigest := fun s =>
  ⟨beginDigest s, exec_init s, beginDigest_initialValues s, bufByte_beginDigest s, beginDigest_buf s,
    beginDigest_port s, beginDigest_resets s⟩

end Sys2Proof.Machine
end

section
/-! WRITE (spec/41_block_buffer.md R90, R91): its three cases, each with its frame. -/

namespace Sys2Proof.Machine

/-- The cursor is at 0 exactly when the count is a multiple of the block size (spec/10_state.md R24). -/
theorem cur_eq_zero_iff (s : State) : s.cur = 0 ↔ s.len.toNat % 64 = 0 := by
  rw [← cur_toNat]
  exact BitVec.toNat_inj.symm

/-- The `LEN` test of WRITE as a statement about numbers (R90). -/
theorem ne_lenMax_of_toNat_lt {n : Length} (h : n.toNat < 2 ^ 61 - 1) : n ≠ lenMax := by
  rintro rfl
  rw [lenMax_toNat] at h
  exact absurd h (lt_irrefl _)

/-- WRITE compresses exactly when the new count is a multiple of 64 (R90, the last form of the test of R91). -/
theorem writeState_h_of_len {s : State} (hl : s.len ≠ lenMax) (d : Byte) : (writeState d s).h =
    if (s.len.toNat + 1) % 64 = 0 then compressionFunction s.h (writeState d s).block else s.h := by
  rw [writeState_h]
  simp only [cur_eq_zero_iff, writeState_len, len_succ_toNat hl]

/-- Settles O14: in the two faulting cases WRITE records its fault, and in the third it leaves `writeState`. -/
theorem writeFollowsItsRule : Obligations.WriteFollowsItsRule := by
  refine fun s d => ⟨fun hdone => ?reuse, fun habsorb hmax => ?overflow, fun habsorb hlt => ?stored⟩
  case reuse =>
    rw [exec_write_done hdone, recordFault_eq]
    rfl
  case overflow =>
    have hl : s.len = lenMax := BitVec.eq_of_toNat_eq (hmax.trans lenMax_toNat.symm)
    rw [exec_write_full habsorb hl, recordFault_eq]
    rfl
  case stored =>
    have hl : s.len ≠ lenMax := ne_lenMax_of_toNat_lt hlt
    have hlen : (writeState d s).len.toNat = s.len.toNat + 1 := by rw [writeState_len, len_succ_toNat hl]
    have hbuf (k : Offset) : (writeState d s).bufByte k = if k = s.cur then d else s.bufByte k := by
      simp only [bufByte_writeState, eq_comm]
    exact ⟨writeState d s, exec_write habsorb hl d, hlen, hbuf, writeState_h_of_len hl d, writeState_phase d s,
      writeState_err d s, writeState_errcode d s, writeState_port d s, writeState_resets d s⟩

end Sys2Proof.Machine
end

section
/-! `Ch` and `Maj` (spec/42_compression_core.md R108, R109): what each bit of them is, and their usual forms and corner cases,
which follow bit by bit. -/

namespace Sys2Proof.Machine

section BitForms
variable (x y z : Word) (i : Nat)

/-- `Ch` selects: a bit of `x` chooses between those of `y` and `z` (R108). -/
theorem ch_getLsbD : (ch x y z).getLsbD i = if x.getLsbD i then y.getLsbD i else z.getLsbD i := by
  rw [ch, BitVec.getLsbD_xor, BitVec.getLsbD_and, BitVec.getLsbD_xor]
  cases x.getLsbD i with
  | false => simp
  | true => simp [Bool.xor_comm (y.getLsbD i)]

theorem maj_getLsbD :
    (maj x y z).getLsbD i = (x.getLsbD i && y.getLsbD i || z.getLsbD i && (x.getLsbD i || y.getLsbD i)) := by
  rw [maj, BitVec.getLsbD_or, BitVec.getLsbD_and, BitVec.getLsbD_and, BitVec.getLsbD_or]

/-- `Maj` takes the majority of three bits (R109). -/
theorem maj_getLsbD_iff :
    (maj x y z).getLsbD i = true ↔ 2 ≤ [x.getLsbD i, y.getLsbD i, z.getLsbD i].count true := by
  have hvotes : ∀ a b c : Bool, (a && b || c && (a || b)) = true ↔ 2 ≤ [a, b, c].count true := by decide
  rw [maj_getLsbD, hvotes]

end BitForms

/-- The usual form of `Ch`: the two terms never have a bit in common (R108). -/
theorem ch_eq_xor (x y z : Word) : ch x y z = (x &&& y) ^^^ (~~~x &&& z) := by
  refine BitVec.eq_of_getLsbD_eq fun i hi => ?_
  rw [ch_getLsbD, BitVec.getLsbD_xor, BitVec.getLsbD_and, BitVec.getLsbD_and, BitVec.getLsbD_not]
  cases x.getLsbD i <;> simp [hi]

/-- The usual form of `Maj`: an odd number of the three pairs agree on a 1 exactly when one of them does (R109). -/
theorem maj_eq_xor (x y z : Word) : maj x y z = (x &&& y) ^^^ (x &&& z) ^^^ (y &&& z) := by
  refine BitVec.eq_of_getLsbD_eq fun i _ => ?_
  have hpairs : ∀ a b c : Bool, (a && b || c && (a || b)) = ((a && b) ^^ (a && c) ^^ (b && c)) := by decide
  rw [maj_getLsbD, hpairs]
  simp

section Corners
variable (x y z : Word)

theorem ch_allOnes : ch (BitVec.allOnes 32) y z = y := by
  refine BitVec.eq_of_getLsbD_eq fun i hi => ?_
  rw [ch_getLsbD, BitVec.getLsbD_allOnes, decide_eq_true hi, if_pos rfl]

theorem ch_zero : ch 0 y z = z := by simp [ch]

theorem ch_self : ch x y y = y := by simp [ch]

theorem maj_self : maj x x z = x := by
  refine BitVec.eq_of_getLsbD_eq fun i _ => ?_
  rw [maj_getLsbD]
  cases x.getLsbD i <;> simp

theorem maj_zero : maj 0 y z = y &&& z := by simp [maj, BitVec.and_comm]

theorem maj_allOnes : maj (BitVec.allOnes 32) y z = y ||| z := by
  rw [maj, BitVec.allOnes_and, BitVec.allOnes_or, BitVec.and_allOnes]

end Corners

/-- Settles O20: the bit forms give the usual forms, and the corner cases are those of a fixed or repeated operand. -/
theorem chooseAndMajority : Obligations.ChooseAndMajority := fun x y z =>
  ⟨rfl, rfl, ch_getLsbD x y z, maj_getLsbD_iff x y z, ch_eq_xor x y z, maj_eq_xor x y z,
    ch_allOnes y z, ch_zero y z, ch_self x y, maj_self x z, maj_zero y z, maj_allOnes y z⟩

end Sys2Proof.Machine
end

section
/-! The message schedule (spec/42_compression_core.md R101, R102): extending a schedule keeps its entries, and each new entry is
the recurrence on the finished schedule. -/

namespace Sys2Proof.Machine

theorem append_byte_toNat {n : Nat} (v : BitVec n) (b : Byte) : (v ++ b).toNat = v.toNat * 2 ^ 8 + b.toNat := by
  rw [BitVec.toNat_append, ← Nat.shiftLeft_add_eq_or_of_lt b.isLt, Nat.shiftLeft_eq]

/-- The value of a big-endian word (spec/20_memory.md R44). -/
theorem wordOfBytes_toNat (b0 b1 b2 b3 : Byte) : (wordOfBytes b0 b1 b2 b3).toNat =
    b0.toNat * 2 ^ 24 + b1.toNat * 2 ^ 16 + b2.toNat * 2 ^ 8 + b3.toNat := by
  simp only [wordOfBytes, append_byte_toNat]
  omega

/-- The right-hand side of R102 for entry `t`, read off a schedule of any length. -/
def recurrenceAt (w : List Word) (t : Nat) : Word :=
  smallSigma1 (scheduleAt w (t - 2)) + scheduleAt w (t - 7) + smallSigma0 (scheduleAt w (t - 15)) + scheduleAt w (t - 16)

theorem nextScheduleWord_eq_recurrenceAt (w : List Word) : nextScheduleWord w = recurrenceAt w w.length := rfl

theorem recurrenceAt_toNat (w : List Word) (t : Nat) : (recurrenceAt w t).toNat =
    ((smallSigma1 (scheduleAt w (t - 2))).toNat + (scheduleAt w (t - 7)).toNat +
      (smallSigma0 (scheduleAt w (t - 15))).toNat + (scheduleAt w (t - 16)).toNat) % 2 ^ 32 := by
  simp only [recurrenceAt, BitVec.toNat_add, Nat.mod_add_mod]

/-- The recurrence looks back only: equal earlier entries give equal values. -/
theorem recurrenceAt_congr {w w' : List Word} {t : Nat} (ht : 0 < t)
    (h : ∀ u < t, scheduleAt w u = scheduleAt w' u) : recurrenceAt w t = recurrenceAt w' t := by
  simp only [recurrenceAt, h (t - 2) (by omega), h (t - 7) (by omega), h (t - 15) (by omega), h (t - 16) (by omega)]

section Extend
variable (n : Nat) (w : List Word)

@[simp] theorem extendSchedule_length : (extendSchedule n w).length = w.length + n := by
  induction n generalizing w with
  | zero => rfl
  | succ n ih => rw [extendSchedule, ih, List.length_append, List.length_singleton, Nat.add_assoc, Nat.add_comm 1]

variable {n w} {t : Nat}

theorem scheduleAt_append_of_lt (v : List Word) (ht : t < w.length) : scheduleAt (w ++ v) t = scheduleAt w t :=
  List.getD_append _ _ _ _ ht

/-- Extending a schedule keeps the entries it has. -/
theorem scheduleAt_extendSchedule_of_lt (ht : t < w.length) : scheduleAt (extendSchedule n w) t = scheduleAt w t := by
  induction n generalizing w with
  | zero => rfl
  | succ n ih => rw [extendSchedule, ih (by simp; omega), scheduleAt_append_of_lt _ ht]

/-- Every entry that an extension adds is the recurrence on the finished schedule (R102). -/
theorem scheduleAt_extendSchedule (h0 : 0 < w.length) (ht : w.length ≤ t) (htn : t < w.length + n) :
    scheduleAt (extendSchedule n w) t = recurrenceAt (extendSchedule n w) t := by
  induction n generalizing w with
  | zero => omega
  | succ n ih =>
    have hlen : (w ++ [nextScheduleWord w]).length = w.length + 1 := List.length_append
    rw [extendSchedule]
    obtain rfl | hlt := ht.eq_or_lt
    · calc scheduleAt (extendSchedule n (w ++ [nextScheduleWord w])) w.length
          = scheduleAt (w ++ [nextScheduleWord w]) w.length := scheduleAt_extendSchedule_of_lt (by omega)
        _ = recurrenceAt w w.length := by simp [scheduleAt, nextScheduleWord_eq_recurrenceAt]
        _ = recurrenceAt (extendSchedule n (w ++ [nextScheduleWord w])) w.length :=
          recurrenceAt_congr h0 fun u hu => by
            rw [scheduleAt_extendSchedule_of_lt (by omega), scheduleAt_append_of_lt _ hu]
    · exact ih (by omega) (by omega) (by omega)

end Extend

section Schedule
variable (m : BlockWords)

@[simp] theorem schedule_length : (schedule m).length = 64 := by
  rw [schedule, extendSchedule_length, Vector.length_toList]

/-- The first sixteen entries are the block words (R101). -/
theorem scheduleAt_schedule_of_lt {t : Nat} (ht : t < 16) : scheduleAt (schedule m) t = m[t] := by
  rw [schedule, scheduleAt_extendSchedule_of_lt (by simpa using ht)]
  simp [scheduleAt, ht]

theorem scheduleAt_schedule {t : Nat} (h16 : 16 ≤ t) (h64 : t < 64) :
    scheduleAt (schedule m) t = recurrenceAt (schedule m) t :=
  scheduleAt_extendSchedule (by simp) (by simpa using h16) (by simpa using h64)

end Schedule

theorem scheduleAt_replicate_zero (k t : Nat) : scheduleAt (List.replicate k 0) t = 0 := by
  rw [scheduleAt, List.getD_eq_getElem?_getD]
  exact List.getElem?_getD_replicate_default_eq 0 k t

/-- The recurrence takes zeros to zero. -/
theorem nextScheduleWord_replicate_zero (k : Nat) : nextScheduleWord (List.replicate k 0) = 0 := by
  simp only [nextScheduleWord, scheduleAt_replicate_zero]
  decide

theorem extendSchedule_replicate_zero (n k : Nat) :
    extendSchedule n (List.replicate k 0) = List.replicate (k + n) 0 := by
  induction n generalizing k with
  | zero => rfl
  | succ n ih =>
    rw [extendSchedule, nextScheduleWord_replicate_zero, ← List.replicate_succ', ih, Nat.add_right_comm, Nat.add_assoc]

theorem wordsOfBlock_zero : wordsOfBlock (Vector.replicate 64 0) = Vector.replicate 16 0 := by
  ext i hi
  simp [wordsOfBlock, wordOfBytes]

theorem schedule_zero : schedule (wordsOfBlock (Vector.replicate 64 0)) = List.replicate 64 0 := by
  rw [wordsOfBlock_zero, schedule, Vector.toList_replicate, extendSchedule_replicate_zero]

/-- Settles O23: the first sixteen entries are kept through the extension, the others are the recurrence, and the recurrence
takes zeros to zero. -/
theorem messageScheduleRecurrence : Obligations.MessageScheduleRecurrence := by
  refine ⟨fun b => ⟨schedule_length _, fun i => ?words, fun t h16 h64 => ?recurrence⟩, fun t => ?zero⟩
  case words =>
    rw [scheduleAt_schedule_of_lt _ i.isLt, wordsOfBlock, Vector.getElem_ofFn, wordOfBytes_toNat]
  case recurrence => rw [scheduleAt_schedule _ h16 h64, recurrenceAt_toNat]
  case zero => rw [schedule_zero, scheduleAt_replicate_zero]

end Sys2Proof.Machine
end

section
/-! The length field (spec/43_finalizer.md R135, R136): the bit length is exact, and its words and bytes are its digits. -/

namespace Sys2Proof.Machine

section LengthField
variable (len : Length)

/-- Eight times a count below `2^61` fits 64 bits (R135). -/
@[simp] theorem bitLength_toNat : (bitLength len).toNat = 8 * len.toNat := by
  have hlen := len.isLt
  have h8 : (8 : BitVec 64).toNat = 8 := rfl
  rw [bitLength, BitVec.toNat_mul, BitVec.toNat_setWidth, h8]
  omega

theorem lengthHi_toNat : (lengthHi len).toNat = 8 * len.toNat / 2 ^ 32 := by
  have hlen := len.isLt
  rw [lengthHi, BitVec.extractLsb'_toNat, bitLength_toNat, Nat.shiftRight_eq_div_pow]
  omega

theorem lengthLo_toNat : (lengthLo len).toNat = 8 * len.toNat % 2 ^ 32 := by
  rw [lengthLo, BitVec.extractLsb'_toNat, bitLength_toNat, Nat.shiftRight_zero]

/-- `hi = LEN[60:29]` (R135). -/
theorem lengthHi_eq_extractLsb' : lengthHi len = len.extractLsb' 29 32 := by
  have hlen := len.isLt
  apply BitVec.eq_of_toNat_eq
  rw [lengthHi_toNat, BitVec.extractLsb'_toNat, Nat.shiftRight_eq_div_pow]
  omega

/-- `lo` is `LEN[28:0]` followed by three zero bits (R135). -/
theorem lengthLo_eq_append : lengthLo len = len.extractLsb' 0 29 ++ 0#3 := by
  apply BitVec.eq_of_toNat_eq
  rw [lengthLo_toNat, BitVec.toNat_append, BitVec.extractLsb'_toNat, BitVec.toNat_zero, Nat.or_zero, Nat.shiftLeft_eq,
    Nat.shiftRight_zero]
  omega

/-- The bytes of the length field are the base-256 digits of the bit length (R136). -/
theorem lengthByte_eq_digit {j : Nat} (hj : j < 8) :
    lengthByte len j = BitVec.ofNat 8 (8 * len.toNat / 256 ^ (7 - j)) := by
  have hpow : 2 ^ (56 - 8 * j) = 256 ^ (7 - j) := by
    rw [show 56 - 8 * j = 8 * (7 - j) by omega, Nat.pow_mul]
  apply BitVec.eq_of_toNat_eq
  rw [lengthByte, BitVec.extractLsb'_toNat, bitLength_toNat, Nat.shiftRight_eq_div_pow, hpow, BitVec.toNat_ofNat]

end LengthField

/-- Settles O26: the product does not overflow, so the two words are its quotient and remainder by `2^32`. -/
theorem bitLengthIsExact : Obligations.BitLengthIsExact := by
  refine ⟨fun len => ?exact, ?boundaries⟩
  case exact =>
    exact ⟨bitLength_toNat len, lengthHi_toNat len, lengthLo_toNat len, lengthHi_eq_extractLsb' len,
      lengthLo_eq_append len⟩
  case boundaries => decide

end Sys2Proof.Machine
end

section
/-! FINAL (spec/43_finalizer.md R131 to R139): the bytes it leaves in `BUF`, the blocks it compresses and the number of its byte
stores, for one block and for two. -/

namespace Sys2Proof.Machine

section StoreCounts

@[simp] theorem zeroStores_length (lo hi : Nat) : (zeroStores lo hi).length = hi + 1 - lo := by
  rw [zeroStores, List.length_map, List.length_range']

/-- The pad byte and the zero fill store each offset from `rem` on once (R132, R133). -/
theorem padStores_length (rem : Offset) : (padStores rem).length = 64 - rem.toNat := by
  have hrem := rem.isLt
  rw [padStores, List.length_cons, zeroStores_length]
  omega

theorem freshStores_length : freshStores.length = 64 := zeroStores_length 0 63

theorem wordStores_length (i : WordIndex) (v : Word) : (wordStores i v).length = 4 := rfl

end StoreCounts

section Blocks
variable (s : State)

/-- Byte `k` of the partial block once it is padded: the message bytes below the cursor, the pad byte, zeros
(R132, R133). -/
def paddedByte (k : Nat) : Byte :=
  if k < s.len.toNat % 64 then s.bufByte (BitVec.ofNat 6 k) else if k = s.len.toNat % 64 then 0x80 else 0

theorem bufByte_padStores_cur (k : Offset) : (storeAll (padStores s.cur) s).bufByte k = paddedByte s k.toNat := by
  rw [bufByte_padStores, paddedByte, ← cur_toNat, BitVec.ofNat_toNat, BitVec.setWidth_eq]
  simp only [BitVec.lt_def, BitVec.toNat_inj, padByte]

theorem block_padStores_cur :
    (storeAll (padStores s.cur) s).block = Vector.ofFn fun k : Fin 64 => paddedByte s k.val := by
  ext i hi
  rw [block_getElem, bufByte_padStores_cur, Vector.getElem_ofFn, BitVec.toNat_ofNat, Nat.mod_eq_of_lt hi]

variable {s}

theorem needsSecondBlock_of_le (h : s.len.toNat % 64 ≤ 55) : needsSecondBlock s.cur = false := by
  rw [needsSecondBlock, cur_toNat, padLimit, decide_eq_false (by omega)]

theorem needsSecondBlock_of_ge (h : 56 ≤ s.len.toNat % 64) : needsSecondBlock s.cur = true := by
  rw [needsSecondBlock, cur_toNat, padLimit, decide_eq_true h]

/-- The last eight bytes of the buffer that FINAL leaves are the length field, whatever the number of blocks. -/
theorem bufByte_finalState_of_ge {k : Offset} (hk : ¬ k.toNat < 56) :
    (finalState s).bufByte k = BitVec.ofNat 8 (8 * s.len.toNat / 256 ^ (63 - k.toNat)) := by
  have hlt := k.isLt
  have hexp : 7 - (k.toNat - 56) = 63 - k.toNat := by omega
  rw [bufByte_finalState, if_neg hk, lengthByte_eq_digit _ (by omega), hexp]

/-- One block: `BUF` keeps the padded partial block in front of the length field (R139). -/
theorem bufByte_finalState_one (h : s.len.toNat % 64 ≤ 55) (k : Offset) : (finalState s).bufByte k =
    if k.toNat < 56 then paddedByte s k.toNat else BitVec.ofNat 8 (8 * s.len.toNat / 256 ^ (63 - k.toNat)) := by
  split
  · next hk =>
    rw [bufByte_finalState, if_pos hk, needsSecondBlock_of_le h, if_neg Bool.false_ne_true, ← bufByte_padStores,
      bufByte_padStores_cur]
  · next hk => exact bufByte_finalState_of_ge hk

/-- Two blocks: `BUF` keeps zeros in front of the length field (R134, R139). -/
theorem bufByte_finalState_two (h : 56 ≤ s.len.toNat % 64) (k : Offset) : (finalState s).bufByte k =
    if k.toNat < 56 then 0 else BitVec.ofNat 8 (8 * s.len.toNat / 256 ^ (63 - k.toNat)) := by
  split
  · next hk => rw [bufByte_finalState, if_pos hk, needsSecondBlock_of_ge h, if_pos rfl]
  · next hk => exact bufByte_finalState_of_ge hk

theorem finalState_h_one (h : s.len.toNat % 64 ≤ 55) :
    (finalState s).h = compressionFunction s.h (finalState s).block := by
  rw [finalState_h, needsSecondBlock_of_le h, if_neg Bool.false_ne_true]

theorem finalState_h_two (h : 56 ≤ s.len.toNat % 64) : (finalState s).h =
    compressionFunction (compressionFunction s.h (Vector.ofFn fun k : Fin 64 => paddedByte s k.val))
      (finalState s).block := by
  rw [finalState_h, needsSecondBlock_of_ge h, if_pos rfl, block_padStores_cur]

end Blocks

/-- The digest has a value in the state that FINAL leaves (R138). -/
theorem finalState_digest (s : State) : (finalState s).digest = some (digestBytes (finalState s).h) := by
  rw [State.digest, finalState_phase]

/-- Settles O27: in phase `DONE` only the fault is recorded; in phase `ABSORB` the bytes, the compressions and the store count
are those of one block or of two. -/
theorem finalFollowsItsRule : Obligations.FinalFollowsItsRule := by
  intro s
  refine ⟨fun hdone => ?done, fun habsorb => ⟨finalState s, exec_final habsorb, fun hone => ?one, fun htwo => ?two,
    finalState_phase s, finalState_len s, finalState_err s, finalState_errcode s, finalState_port s,
    finalState_resets s, finalState_digest s⟩⟩
  case done =>
    rw [exec_final_done hdone, recordFault_eq]
    rfl
  case one =>
    refine ⟨bufByte_finalState_one hone, finalState_h_one hone, ?_⟩
    rw [padStores_length, wordStores_length, wordStores_length, cur_toNat]
    omega
  case two =>
    refine ⟨bufByte_finalState_two htwo, finalState_h_two htwo, ?_⟩
    rw [padStores_length, freshStores_length, wordStores_length, wordStores_length, cur_toNat]
    omega

end Sys2Proof.Machine
end

section
/-! The empty message (spec/43_finalizer.md R141): from the initial values, FINAL compresses one fixed block, whatever `BUF`
held. -/

namespace Sys2Proof.Machine

/-- The padded empty message: the pad byte and 63 zeros (R141). -/
def emptyBlock : Block := Vector.ofFn fun k : Fin 64 => if k.val = 0 then 0x80 else 0

/-- The digest of the empty message that the source prints (R141). -/
def emptyDigest : Digest :=
  #v[0xe3, 0xb0, 0xc4, 0x42, 0x98, 0xfc, 0x1c, 0x14, 0x9a, 0xfb, 0xf4, 0xc8, 0x99, 0x6f, 0xb9, 0x24,
    0x27, 0xae, 0x41, 0xe4, 0x64, 0x9b, 0x93, 0x4c, 0xa4, 0x95, 0x99, 0x1b, 0x78, 0x52, 0xb8, 0x55]

/-- One evaluation of the compression function, 64 rounds on known words. -/
theorem digestBytes_emptyBlock : digestBytes (compressionFunction iv emptyBlock) = emptyDigest := by decide +kernel

section EmptyMessage
variable {s : State}

theorem bufByte_finalState_empty (h : s.len = 0) (k : Offset) :
    (finalState s).bufByte k = if k = 0 then 0x80 else 0 := by
  have hlen : s.len.toNat = 0 := by rw [h]; rfl
  have hk0 : k.toNat = 0 ↔ k = 0 := BitVec.toNat_inj (y := 0)
  rw [bufByte_finalState_one (by omega), paddedByte, hlen, Nat.zero_mod, if_neg (Nat.not_lt_zero _), Nat.mul_zero,
    Nat.zero_div]
  simp only [hk0]
  split
  · rfl
  · next hk =>
    have hne : k ≠ 0 := by
      rintro rfl
      exact hk (by decide)
    rw [if_neg hne]
    rfl

theorem block_finalState_empty (h : s.len = 0) : (finalState s).block = emptyBlock := by
  ext i hi
  have hi0 : BitVec.ofNat 6 i = 0 ↔ i = 0 := by
    rw [← BitVec.toNat_inj, BitVec.toNat_ofNat, Nat.mod_eq_of_lt hi]
    rfl
  rw [block_getElem, bufByte_finalState_empty h, emptyBlock, Vector.getElem_ofFn]
  simp only [hi0]

/-- FINAL from the initial values gives the digest of the empty message, by one compression. -/
theorem exec_final_of_initialValues (hs : s.initialValues) :
    ∃ t, exec .final s = .next t ∧ t.digest = some emptyDigest ∧ (∀ k, t.bufByte k = if k = 0 then 0x80 else 0) ∧
      t.h = compressionFunction iv t.block := by
  obtain ⟨hh, hlen, -, hphase, -, -⟩ := hs
  have hlen0 : s.len.toNat % 64 ≤ 55 := by rw [hlen]; decide
  have hiv : s.h = iv := hh
  have hfinal : (finalState s).h = compressionFunction iv (finalState s).block := by rw [finalState_h_one hlen0, hiv]
  have hdigest : (finalState s).digest = some emptyDigest := by
    rw [finalState_digest, hfinal, block_finalState_empty hlen, digestBytes_emptyBlock]
  exact ⟨finalState s, exec_final hphase, hdigest, bufByte_finalState_empty hlen, hfinal⟩

end EmptyMessage

/-- Settles O30: INIT in any state, like reset, leaves the initial values, and from these FINAL gives the printed digest. -/
theorem emptyMessageDigest : Obligations.EmptyMessageDigest := by
  refine ⟨fun s => ?afterInit, exec_final_of_initialValues reset_initialValues⟩
  case afterInit =>
    obtain ⟨t, ht, hvalues⟩ := exec_final_of_initialValues (beginDigest_initialValues s)
    refine ⟨t, ?_, hvalues⟩
    rw [runCommands_cons (exec_init s), runCommands_cons ht]
    rfl

end Sys2Proof.Machine
end

section
/-! Faults (spec/60_exceptions.md R150, R152, R157, R159): what a fault records, where reuse is refused, and which fault comes
first. -/

namespace Sys2Proof.Machine

/-- Without a recorded fault a new one is recorded (R159). -/
theorem recordFault_of_noFault {s : State} (h : s.err = false) (c : FaultCause) :
    recordFault c s = { s with err := true, errcode := faultCode c } := by
  rw [recordFault_eq, h]
  rfl

/-- A recorded fault is kept, and nothing else changes either (R159). -/
theorem recordFault_of_fault {s : State} (h : s.err = true) (c : FaultCause) : recordFault c s = s :=
  if_pos h

/-- Settles O32: `raise` is `recordFault`, which turns on `ERR`. -/
theorem faultEntryKeepsTheFirstFault : Obligations.FaultEntryKeepsTheFirstFault := by
  refine fun c s => ⟨fun hnone => ?first, fun hfault => ?later, rfl, rfl, rfl⟩
  case first => rw [raise, recordFault_of_noFault hnone]
  case later => rw [raise, recordFault_of_fault hfault]

/-- In phase `DONE` every command but INIT raises `ReuseAfterFinalize`, whatever `LEN` is (R152, R157). -/
theorem exec_done {s : State} (hdone : s.phase = .done) {i : Instr} (hi : i ≠ .init) :
    exec i s = .next (recordFault .reuseAfterFinalize s) := by
  cases i with
  | init => exact absurd rfl hi
  | write d => exact exec_write_done hdone d
  | final => exact exec_final_done hdone

/-- Settles O33: the refused command records its fault and does nothing else. -/
theorem reuseAfterFinalizeIsRefused : Obligations.ReuseAfterFinalizeIsRefused := by
  intro s i hdone hi
  rw [exec_done hdone hi, recordFault_eq]
  rfl

/-- The first fault of a state can be read in the next one (R159). -/
theorem exists_next_of_recordFault {r : Result} {c : FaultCause} {s : State} (hr : r = .next (recordFault c s))
    (hnone : s.err = false) : ∃ t, r = .next t ∧ t.err = true ∧ t.errcode = faultCode c :=
  ⟨recordFault c s, hr, recordFault_err c s, by simp [hnone]⟩

/-- Settles O35: decoding comes before the command's tests, and in the command the `PHASE` test before the `LEN` test. -/
theorem faultPriority : Obligations.FaultPriority := by
  intro s w ps hp hnone
  rw [step_of_presentCommand hp]
  refine ⟨fun ⟨r, hr⟩ => ?illegal, fun hdone hw => ?reuse, fun habsorb ⟨d, hw⟩ hlen => ?overflow⟩
  case illegal => exact exists_next_of_recordFault (runWord_illegal hr _) hnone
  case reuse =>
    obtain ⟨i, hi, hw⟩ : ∃ i, i ≠ .init ∧ decode w = .command i := by
      rcases hw with ⟨d, hw⟩ | hw
      · exact ⟨.write d, nofun, hw⟩
      · exact ⟨.final, nofun, hw⟩
    rw [runWord_command hw]
    exact exists_next_of_recordFault (exec_done (s := { s with port := ps }) hdone hi) hnone
  case overflow =>
    rw [runWord_command hw]
    exact exists_next_of_recordFault (exec_write_full (s := { s with port := ps }) habsorb hlen d) hnone

end Sys2Proof.Machine
end

section
/-! Engines that agree (spec/10_state.md R33, R38): stale and unwritten bytes of `BUF` show in no run. -/

namespace Sys2Proof.Machine

/-- Settles O46: any number of steps keeps agreement, and engines that agree have the same outputs. -/
theorem staleBytesAreUnobservable : Obligations.StaleBytesAreUnobservable := by
  intro n s t h hport
  obtain ⟨u, v, hu, hv, huv, -⟩ := keepsAgreement_runSteps n h hport
  exact ⟨u, v, hu, hv, huv, outputs_eq_of_agree huv, digest_eq_of_agree huv⟩

end Sys2Proof.Machine
end

section
/-! Sequences of WRITE (spec/41_block_buffer.md R90, R95, R96): what they leave, and that the chunk-copy algorithm of UPDATE
leaves the same. -/

namespace Sys2Proof.Machine

/-- The state that WRITE of each byte in turn leaves when none of them faults. -/
def writeAll (bs : List Byte) (s : State) : State := bs.foldl (fun s d => writeState d s) s

section WriteAll
variable (bs : List Byte) (s : State)

@[simp] theorem writeAll_nil : writeAll [] s = s := rfl

@[simp] theorem writeAll_cons (d : Byte) : writeAll (d :: bs) s = writeAll bs (writeState d s) := rfl

theorem writeAll_append (cs : List Byte) : writeAll (bs ++ cs) s = writeAll cs (writeAll bs s) := List.foldl_append

end WriteAll

/-- The WRITE commands of bytes for which there is enough length left (R90). -/
theorem runCommands_writes (bs : List Byte) {s : State} (hphase : s.phase = .absorb)
    (hlen : s.len.toNat + bs.length ≤ 2 ^ 61 - 1) : runCommands (bs.map .write) s = .next (writeAll bs s) := by
  induction bs generalizing s with
  | nil => rfl
  | cons d bs ih =>
    rw [List.length_cons] at hlen
    have hl : s.len ≠ lenMax := ne_lenMax_of_toNat_lt (by omega)
    have hlen' : (writeState d s).len.toNat = s.len.toNat + 1 := by rw [writeState_len, len_succ_toNat hl]
    rw [List.map_cons, runCommands_cons (exec_write hphase hl d), writeAll_cons]
    exact ih ((writeState_phase d s).trans hphase) (by omega)

section Chunks

/-- Counting and storing do not depend on each other. -/
theorem storeAll_addLen (l : List (Offset × Byte)) (n : Nat) (s : State) :
    storeAll l (addLen n s) = addLen n (storeAll l s) := by
  rw [storeAll_eq, storeAll_eq]
  rfl

theorem addLen_addLen (m n : Nat) (s : State) : addLen n (addLen m s) = addLen (m + n) s := by
  simp only [addLen, BitVec.ofNat_add, BitVec.add_assoc]

/-- The store itself moves the cursor, the full test does not (R90). -/
theorem storeAtCursor_cur (d : Byte) (s : State) : (storeAtCursor d s).cur = s.cur + 1 := by
  rw [← writeState_cur d s]
  exact cur_congr (by simp)

/-- A WRITE that does not fill the buffer does not compress (R91). -/
theorem writeState_of_cur_ne {s : State} (h : s.cur ≠ 63) (d : Byte) : writeState d s = storeAtCursor d s := by
  have hcur : (storeAtCursor d s).cur ≠ 0 := by
    rw [storeAtCursor_cur]
    bv_omega
  rw [writeState, compressIfFull, if_neg hcur]

/-- A chunk of two or more bytes is the store of its first byte and then the chunk of the others (R95). -/
theorem absorbChunk_cons (b : Byte) (c : List Byte) (s : State) :
    absorbChunk (b :: c) s = absorbChunk c (storeAtCursor b s) := by
  rw [absorbChunk, absorbChunk, chunkStores, storeAll_cons, storeAtCursor_cur, storeAtCursor, storeAll_addLen,
    addLen_addLen, List.length_cons, Nat.add_comm c.length]

/-- A chunk that fits in front of the end of the buffer is the WRITE of its bytes: only the last of them can fill the
buffer. -/
theorem absorbChunk_eq_writeAll {c : List Byte} (hne : c ≠ []) {s : State} (hfit : c.length ≤ 64 - s.cur.toNat) :
    absorbChunk c s = writeAll c s := by
  induction c generalizing s with
  | nil => exact absurd rfl hne
  | cons b c ih =>
    cases c with
    | nil => rfl
    | cons b' c =>
      rw [List.length_cons, List.length_cons] at hfit
      have hcur : s.cur ≠ 63 := by bv_omega
      have hfit' : (b' :: c).length ≤ 64 - (storeAtCursor b s).cur.toNat := by
        rw [storeAtCursor_cur, List.length_cons]
        bv_omega
      rw [absorbChunk_cons, ih (List.cons_ne_nil b' c) hfit', writeAll_cons _ s b, writeState_of_cur_ne hcur]

theorem updateLoop_eq_writeAll {fuel : Nat} {bs : List Byte} (hfuel : bs.length ≤ fuel) (s : State) :
    updateLoop fuel bs s = writeAll bs s := by
  induction fuel generalizing bs s with
  | zero =>
    obtain rfl : bs = [] := List.length_eq_zero_iff.1 (Nat.le_zero.1 hfuel)
    rfl
  | succ fuel ih =>
    rw [updateLoop]
    split
    · next hnil => rw [hnil, writeAll_nil]
    · next hne =>
      have hpos : 0 < bs.length := List.length_pos_iff.2 hne
      have hcur := s.cur.isLt
      dsimp only
      generalize hk : min bs.length (64 - s.cur.toNat) = k
      have hchunk : bs.take k ≠ [] := by
        rw [ne_eq, List.take_eq_nil_iff, not_or]
        exact ⟨by omega, hne⟩
      have hfit : (bs.take k).length ≤ 64 - s.cur.toNat := by
        rw [List.length_take]
        omega
      have hrest : (bs.drop k).length ≤ fuel := by
        rw [List.length_drop]
        omega
      rw [absorbChunk_eq_writeAll hchunk hfit, ih hrest, ← writeAll_append, List.take_append_drop]

/-- UPDATE leaves what the WRITE of its bytes leaves (R96). -/
theorem update_eq_writeAll (bs : List Byte) (s : State) : update bs s = writeAll bs s :=
  updateLoop_eq_writeAll le_rfl s

/-- One UPDATE after the other is the WRITE of all their bytes: `writeAll` takes concatenation to composition. -/
theorem foldl_update_eq_writeAll (chunks : List (List Byte)) (s : State) :
    chunks.foldl (fun s b => update b s) s = writeAll chunks.flatten s := by
  induction chunks generalizing s with
  | nil => rfl
  | cons c chunks ih => rw [List.foldl_cons, ih, update_eq_writeAll, List.flatten_cons, writeAll_append]

end Chunks

/-- Settles O16: both are `writeAll`, the commands because none of them faults, UPDATE chunk by chunk. -/
theorem updateIsTheWritesOfItsBytes : Obligations.UpdateIsTheWritesOfItsBytes := by
  intro bs s hphase hlen
  rw [update_eq_writeAll]
  exact runCommands_writes bs hphase hlen

/-- Settles O17: each side is the WRITE of the same bytes, so the split does not matter. -/
theorem chunkingDoesNotMatter : Obligations.ChunkingDoesNotMatter := by
  intro chunks s _ _
  rw [foldl_update_eq_writeAll, update_eq_writeAll]

/-- Settles O15: the cursor goes up by one modulo 64, and WRITE compresses where it comes to 0. -/
theorem bufferIsFullAtOffset63 : Obligations.BufferIsFullAtOffset63 := by
  intro s t d hphase hlt ht
  obtain rfl : writeState d s = t := by
    rw [exec_write hphase (ne_lenMax_of_toNat_lt hlt)] at ht
    injection ht
  have hfull : s.cur = 63 ↔ (writeState d s).cur = 0 := by
    rw [writeState_cur]
    constructor <;> intro h <;> bv_omega
  refine ⟨hfull, cur_eq_zero_iff _, fun hne => ?hash, fun _ => writeState_cur d s⟩
  case hash => rw [writeState_h, if_neg (mt hfull.2 hne)]

end Sys2Proof.Machine
end

section
/-! The padded message (spec/43_finalizer.md R140): its length, its bytes and its length field. -/

namespace Sys2Proof.Machine

section Pad

@[simp] theorem lengthField_length (L : Nat) : (lengthField L).length = 8 := rfl

/-- Byte `j` of the length field, the most significant first. -/
theorem lengthField_getD (L : Nat) {j : Nat} (hj : j < 8) :
    (lengthField L).getD j 0 = BitVec.ofNat 8 (8 * L / 256 ^ (7 - j)) := by
  interval_cases j <;> rfl

/-- The eight bytes are the base-256 digits of a number that has no more than eight. -/
theorem lengthField_value {L : Nat} (hL : L < 2 ^ 61) :
    (lengthField L).foldl (fun n b => 256 * n + b.toNat) 0 = 8 * L := by
  simp only [lengthField, List.map_cons, List.map_nil, List.foldl_cons, List.foldl_nil, BitVec.toNat_ofNat]
  omega

/-- The padding completes one block, or two where the length field does not fit in the first. -/
theorem pad_length (m : List Byte) :
    (pad m).length = 64 * (m.length / 64 + if m.length % 64 ≤ 55 then 1 else 2) := by
  simp only [pad, padZeros, List.length_append, List.length_replicate, lengthField_length, List.length_singleton]
  split <;> omega

theorem pad_length_div (m : List Byte) :
    (pad m).length / 64 = m.length / 64 + if m.length % 64 ≤ 55 then 1 else 2 := by
  rw [pad_length, Nat.mul_div_cancel_left _ (by decide)]

/-- The least number of zeros (R140). -/
theorem padZeros_spec (L : Nat) : (L + 1 + padZeros L) % 64 = 56 ∧ padZeros L < 64 := by
  unfold padZeros
  split <;> omega

theorem pad_eq_cons (m : List Byte) :
    pad m = m ++ 0x80 :: (List.replicate (padZeros m.length) 0 ++ lengthField m.length) := by
  rw [pad, List.append_assoc, List.append_assoc, List.singleton_append]

/-- The bytes in front of the length field: the message, the pad byte, zeros. -/
theorem pad_getD_of_lt (m : List Byte) {j : Nat} (hj : j < m.length + 1 + padZeros m.length) :
    (pad m).getD j 0 = if j < m.length then m.getD j 0 else if j = m.length then 0x80 else 0 := by
  rw [pad_eq_cons]
  split_ifs with hmsg hpad
  · exact List.getD_append _ _ _ _ hmsg
  · rw [List.getD_append_right _ _ _ _ hpad.ge, hpad, Nat.sub_self, List.getD_cons_zero]
  · obtain ⟨i, hi⟩ : ∃ i, j - m.length = i + 1 := ⟨j - m.length - 1, by omega⟩
    have hlt : i < (List.replicate (padZeros m.length) (0 : Byte)).length := by
      rw [List.length_replicate]
      omega
    rw [List.getD_append_right _ _ _ _ (by omega), hi, List.getD_cons_succ, List.getD_append _ _ _ _ hlt,
      List.getD_replicate _ (by simpa using hlt)]

/-- The last eight bytes, counted from the start of the length field. -/
theorem pad_getD_lengthField (m : List Byte) {i : Nat} (hi : i < 8) :
    (pad m).getD (m.length + 1 + padZeros m.length + i) 0 =
      BitVec.ofNat 8 (8 * m.length / 256 ^ (7 - i)) := by
  have hfront : (m ++ [0x80] ++ List.replicate (padZeros m.length) (0 : Byte)).length =
      m.length + 1 + padZeros m.length := by
    rw [List.length_append, List.length_append, List.length_replicate, List.length_singleton]
  rw [pad, List.getD_append_right _ _ _ _ (by omega), hfront, Nat.add_sub_cancel_left, lengthField_getD _ hi]

/-- The last eight bytes of a last block that starts at byte `64q`. -/
theorem pad_getD_lastBlock (m : List Byte) {q i : Nat} (hq : 64 * q + 56 = m.length + 1 + padZeros m.length)
    (hi : 56 ≤ i) (hlt : i < 64) :
    (pad m).getD (64 * q + i) 0 = BitVec.ofNat 8 (8 * m.length / 256 ^ (63 - i)) := by
  have hindex : 64 * q + i = m.length + 1 + padZeros m.length + (i - 56) := by omega
  have hexp : 63 - i = 7 - (i - 56) := by omega
  rw [hindex, pad_getD_lengthField m (by omega), hexp]

end Pad

/-- Settles O29: `padZeros` is the residue that fills a block up to the length field, and the field is the bit length's
digits. -/
theorem paddedMessageIsWholeBlocks : Obligations.PaddedMessageIsWholeBlocks := by
  intro m
  obtain ⟨hfits, hlt⟩ := padZeros_spec m.length
  exact ⟨⟨padZeros m.length, lengthField m.length, pad_eq_cons m, rfl, hfits, fun z' hz' => by omega,
    lengthField_value⟩, pad_length m⟩

end Sys2Proof.Machine
end

section
/-! The message that the engine absorbs (spec/10_state.md R34): it is empty after reset and INIT, every WRITE appends to it, and
FINAL gives its digest. -/

namespace Sys2Proof.Machine

section HashBlocks
variable {m : List Byte} (l : List Byte)

theorem hashBlocks_zero (m : List Byte) : hashBlocks m 0 = iv := rfl

theorem hashBlocks_succ (m : List Byte) (n : Nat) :
    hashBlocks m (n + 1) = compressionFunction (hashBlocks m n) (blockOf m n) := by
  rw [hashBlocks, List.range_succ, List.foldl_append]
  rfl

theorem blockOf_getElem (m : List Byte) (q : Nat) {i : Nat} (hi : i < 64) :
    (blockOf m q)[i] = m.getD (64 * q + i) 0 := by
  rw [blockOf, Vector.getElem_ofFn]

/-- A block given by its bytes is block `q` of a byte sequence when it has the bytes from `64q` on. -/
theorem ofFn_eq_blockOf {m : List Byte} {q : Nat} {f : Nat → Byte}
    (h : ∀ i < 64, f i = m.getD (64 * q + i) 0) : (Vector.ofFn fun k : Fin 64 => f k.val) = blockOf m q := by
  refine Vector.ext fun i hi => ?_
  rw [blockOf_getElem _ _ hi, Vector.getElem_ofFn, h i hi]

theorem block_eq_blockOf {s : State} {m : List Byte} {q : Nat}
    (h : ∀ i < 64, s.bufByte (BitVec.ofNat 6 i) = m.getD (64 * q + i) 0) : s.block = blockOf m q := by
  refine Vector.ext fun i hi => ?_
  rw [blockOf_getElem _ _ hi, block_getElem, h i hi]

/-- A complete block does not depend on what follows it. -/
theorem blockOf_append {q : Nat} (hq : 64 * q + 64 ≤ m.length) : blockOf (m ++ l) q = blockOf m q := by
  refine Vector.ext fun i hi => ?_
  rw [blockOf_getElem _ _ hi, blockOf_getElem _ _ hi, List.getD_append _ _ _ _ (by omega)]

/-- The hash state of complete blocks does not depend on what follows them. -/
theorem hashBlocks_append {n : Nat} (hn : 64 * n ≤ m.length) : hashBlocks (m ++ l) n = hashBlocks m n := by
  induction n with
  | zero => rw [hashBlocks_zero, hashBlocks_zero]
  | succ n ih => rw [hashBlocks_succ, hashBlocks_succ, ih (by omega), blockOf_append l (by omega)]

end HashBlocks

/-- The initial values are those of an engine that has absorbed nothing (R34). -/
theorem absorbed_nil_of_initialValues {s : State} (h : s.initialValues) : s.Absorbed [] := by
  obtain ⟨hh, hlen, hcur, hphase, -, -⟩ := h
  refine ⟨hphase, by rw [hlen]; rfl, fun k hk => ?_, hh⟩
  rw [hcur] at hk
  exact absurd hk BitVec.not_lt_zero

section Absorbed
variable {s : State} {m : List Byte} (h : s.Absorbed m)
include h

theorem absorbed_cur : s.cur.toNat = m.length % 64 := by rw [cur_toNat, h.len]

/-- The bytes below the cursor are those of the message after its complete blocks (R34 (b)). -/
theorem absorbed_bufByte {i : Nat} (hi : i < m.length % 64) :
    s.bufByte (BitVec.ofNat 6 i) = m.getD (64 * (m.length / 64) + i) 0 := by
  have hcur := absorbed_cur h
  have hik : (BitVec.ofNat 6 i).toNat = i := by rw [BitVec.toNat_ofNat, Nat.mod_eq_of_lt (by omega)]
  have hindex : m.length - s.cur.toNat + i = 64 * (m.length / 64) + i := by omega
  have hbyte := h.buf (BitVec.ofNat 6 i) (by rw [BitVec.lt_def, hik, hcur]; exact hi)
  rw [hik, hindex] at hbyte
  rw [List.getD_eq_getElem?_getD, hbyte, Option.getD_some]

/-- A refused word changes nothing that the message is read from. -/
theorem absorbed_recordFault (c : FaultCause) : (recordFault c s).Absorbed m where
  phase := (recordFault_phase c s).trans h.phase
  len := by rw [recordFault_len, h.len]
  buf k hk := by
    rw [cur_congr (recordFault_len c s)] at hk ⊢
    rw [bufByte_recordFault, h.buf k hk]
  hash := (recordFault_h c s).trans h.hash

/-- After a WRITE the bytes up to the old cursor are those of the longer message. -/
theorem absorbed_bufByte_writeState (d : Byte) {i : Nat} (hi : i ≤ m.length % 64) :
    (writeState d s).bufByte (BitVec.ofNat 6 i) = (m ++ [d]).getD (64 * (m.length / 64) + i) 0 := by
  have hcur := absorbed_cur h
  have hi64 : i % 2 ^ 6 = i := Nat.mod_eq_of_lt (by omega)
  have hik : s.cur = BitVec.ofNat 6 i ↔ i = m.length % 64 := by
    rw [← BitVec.toNat_inj, hcur, BitVec.toNat_ofNat, hi64, eq_comm]
  rw [bufByte_writeState]
  simp only [hik]
  split_ifs with hlast
  · have hindex : 64 * (m.length / 64) + i = m.length := by omega
    rw [hindex, List.getD_append_right _ _ _ _ le_rfl, Nat.sub_self, List.getD_cons_zero]
  · rw [absorbed_bufByte h (by omega), List.getD_append _ _ _ _ (by omega)]

/-- A WRITE that does not fault appends its byte to the message, and compresses the block that it completes (R34). -/
theorem absorbed_writeState (hl : s.len ≠ lenMax) (d : Byte) : (writeState d s).Absorbed (m ++ [d]) where
  phase := (writeState_phase d s).trans h.phase
  len := by rw [writeState_len, len_succ_toNat hl, h.len, List.length_append, List.length_singleton]
  buf k hk := by
    have hcur := absorbed_cur h
    have hcur' : (writeState d s).cur.toNat = (m.length + 1) % 64 := by
      rw [cur_toNat, writeState_len, len_succ_toNat hl, h.len]
    rw [BitVec.lt_def, hcur'] at hk
    have hindex : (m ++ [d]).length - (writeState d s).cur.toNat + k.toNat = 64 * (m.length / 64) + k.toNat := by
      rw [hcur', List.length_append, List.length_singleton]
      omega
    have hlt : 64 * (m.length / 64) + k.toNat < (m ++ [d]).length := by
      rw [List.length_append, List.length_singleton]
      omega
    have hbyte := absorbed_bufByte_writeState h d (i := k.toNat) (by omega)
    rw [BitVec.ofNat_toNat, BitVec.setWidth_eq, List.getD_eq_getElem _ _ hlt] at hbyte
    rw [hindex, hbyte, List.getElem?_eq_getElem hlt]
  hash := by
    rw [writeState_h_of_len hl, h.len, h.hash, List.length_append, List.length_singleton]
    split_ifs with hfull
    · have hblock : (writeState d s).block = blockOf (m ++ [d]) (m.length / 64) :=
        block_eq_blockOf fun i hi => absorbed_bufByte_writeState h d (by omega)
      have hcount : (m.length + 1) / 64 = m.length / 64 + 1 := by omega
      rw [hcount, hashBlocks_succ, hashBlocks_append [d] (by omega), hblock]
    · have hcount : (m.length + 1) / 64 = m.length / 64 := by omega
      rw [hcount, hashBlocks_append [d] (by omega)]

/-- WRITE of further bytes appends them all. -/
theorem absorbed_writeAll (bs : List Byte) (hbs : m.length + bs.length ≤ 2 ^ 61 - 1) :
    (writeAll bs s).Absorbed (m ++ bs) := by
  induction bs generalizing s m with
  | nil => rwa [List.append_nil]
  | cons d bs ih =>
    rw [List.length_cons] at hbs
    have hl : s.len ≠ lenMax := ne_lenMax_of_toNat_lt (by rw [h.len]; omega)
    rw [writeAll_cons, List.append_cons]
    exact ih (absorbed_writeState h hl d) (by rw [List.length_append, List.length_singleton]; omega)

/-- The partial block after its padding is a part of the padded message (spec/43_finalizer.md R132, R133, R140). -/
theorem paddedByte_of_absorbed {i : Nat}
    (hi : 64 * (m.length / 64) + i < m.length + 1 + padZeros m.length) :
    paddedByte s i = (pad m).getD (64 * (m.length / 64) + i) 0 := by
  rw [pad_getD_of_lt m hi, paddedByte, h.len]
  by_cases hlt : i < m.length % 64
  · rw [if_pos hlt, if_pos (by omega), absorbed_bufByte h hlt]
  · have hge : ¬ 64 * (m.length / 64) + i < m.length := by omega
    rw [if_neg hlt, if_neg hge]
    exact if_congr (by omega) rfl rfl

/-- One block: FINAL leaves the last block of the padded message in `BUF` (R139, R140). -/
theorem block_finalState_one_of_absorbed (hrem : m.length % 64 ≤ 55) :
    (finalState s).block = blockOf (pad m) (m.length / 64) := by
  obtain ⟨hfits, hzeros⟩ := padZeros_spec m.length
  refine block_eq_blockOf fun i hi => ?_
  rw [bufByte_finalState_one (by rwa [h.len]), h.len, BitVec.toNat_ofNat, Nat.mod_eq_of_lt hi]
  split_ifs with hfront
  · exact paddedByte_of_absorbed h (by omega)
  · exact (pad_getD_lastBlock m (by omega) (by omega) hi).symm

/-- Two blocks: the padded partial block is the last but one of the padded message (R134, R140). -/
theorem paddedBlock_of_absorbed (hrem : 56 ≤ m.length % 64) :
    (Vector.ofFn fun k : Fin 64 => paddedByte s k.val) = blockOf (pad m) (m.length / 64) := by
  obtain ⟨hfits, hzeros⟩ := padZeros_spec m.length
  exact ofFn_eq_blockOf fun i hi => paddedByte_of_absorbed h (by omega)

/-- Two blocks: FINAL leaves the last block of the padded message in `BUF` (R139, R140). -/
theorem block_finalState_two_of_absorbed (hrem : 56 ≤ m.length % 64) :
    (finalState s).block = blockOf (pad m) (m.length / 64 + 1) := by
  obtain ⟨hfits, hzeros⟩ := padZeros_spec m.length
  refine block_eq_blockOf fun i hi => ?_
  rw [bufByte_finalState_two (by rwa [h.len]), h.len, BitVec.toNat_ofNat, Nat.mod_eq_of_lt hi]
  split_ifs with hfront
  · rw [pad_getD_of_lt m (by omega), if_neg (by omega), if_neg (by omega)]
  · exact (pad_getD_lastBlock m (by omega) (by omega) hi).symm

/-- FINAL compresses the last one or two blocks of the padded message (R131, R140). -/
theorem finalState_h_of_absorbed : (finalState s).h = hashBlocks (pad m) ((pad m).length / 64) := by
  have hcomplete : hashBlocks (pad m) (m.length / 64) = s.h := by
    rw [pad_eq_cons, hashBlocks_append _ (by omega), h.hash]
  rw [pad_length_div]
  by_cases hrem : m.length % 64 ≤ 55
  · rw [if_pos hrem, finalState_h_one (by rwa [h.len]), block_finalState_one_of_absorbed h hrem, hashBlocks_succ,
      hcomplete]
  · have htwo : 56 ≤ m.length % 64 := by omega
    rw [if_neg hrem, finalState_h_two (by rwa [h.len]), block_finalState_two_of_absorbed h htwo,
      paddedBlock_of_absorbed h htwo, hashBlocks_succ, hashBlocks_succ, hcomplete]

theorem digest_finalState_of_absorbed : (finalState s).digest = some (messageDigest m) := by
  rw [finalState_digest, finalState_h_of_absorbed h, messageDigest]

end Absorbed

/-- Settles O45: reset and INIT leave the initial values, WRITE appends or is refused, a reserved word is refused. -/
theorem messageInvariantHolds : Obligations.MessageInvariantHolds := by
  refine ⟨absorbed_nil_of_initialValues reset_initialValues, fun s t ht => ?init, fun s m d h hm => ?write,
    fun s t m d h hm ht => ?overflow, fun s t m w r h hw ht => ?reserved⟩
  case init =>
    obtain rfl : beginDigest s = t := by
      rw [exec_init] at ht
      injection ht
    exact absorbed_nil_of_initialValues (beginDigest_initialValues s)
  case write =>
    have hl : s.len ≠ lenMax := ne_lenMax_of_toNat_lt (by rwa [h.len])
    exact ⟨writeState d s, exec_write h.phase hl d, absorbed_writeState h hl d⟩
  case overflow =>
    have hl : s.len = lenMax := BitVec.eq_of_toNat_eq (h.len.trans hm)
    obtain rfl : recordFault .lengthOverflow s = t := by
      rw [exec_write_full h.phase hl] at ht
      injection ht
    exact absorbed_recordFault h _
  case reserved =>
    obtain rfl : recordFault .illegalCommand s = t := by
      rw [runWord_illegal hw] at ht
      injection ht
    exact absorbed_recordFault h _

@[simp] theorem writeAll_err (bs : List Byte) (s : State) : (writeAll bs s).err = s.err := by
  induction bs generalizing s with
  | nil => rfl
  | cons d bs ih => rw [writeAll_cons, ih, writeState_err]

/-- From the initial values the WRITE of each byte and FINAL give the digest of the message, without a fault. -/
theorem runCommands_message_of_initialValues {s : State} (hs : s.initialValues) {m : List Byte}
    (hm : m.length ≤ 2 ^ 61 - 1) :
    ∃ t, runCommands (m.map .write ++ [.final]) s = .next t ∧
      t.phase = .done ∧ t.err = false ∧ t.digest = some (messageDigest m) := by
  have hnil := absorbed_nil_of_initialValues hs
  have habsorbed : (writeAll m s).Absorbed m := absorbed_writeAll hnil m (by rwa [List.length_nil, Nat.zero_add])
  have hwrites : runCommands (m.map .write) s = .next (writeAll m s) :=
    runCommands_writes m hnil.phase (by rw [hnil.len]; rwa [List.length_nil, Nat.zero_add])
  have hfinal : runCommands [.final] (writeAll m s) = .next (finalState (writeAll m s)) := by
    rw [runCommands_cons (exec_final habsorbed.phase)]
    rfl
  obtain ⟨-, -, -, -, herr, -⟩ := hs
  refine ⟨finalState (writeAll m s), by rw [runCommands_append hwrites, hfinal], finalState_phase _, ?_,
    digest_finalState_of_absorbed habsorbed⟩
  rw [finalState_err, writeAll_err, herr]

/-- Settles O31: INIT in any state, like reset, leaves the initial values, and from these the commands of the message give
its digest. -/
theorem engineComputesTheMessageDigest : Obligations.EngineComputesTheMessageDigest := by
  refine fun m hm => ⟨fun s => ?afterInit, runCommands_message_of_initialValues reset_initialValues hm⟩
  case afterInit =>
    rw [runCommands_cons (exec_init s)]
    exact runCommands_message_of_initialValues (beginDigest_initialValues s) hm

end Sys2Proof.Machine
end

section
/-! Runs (spec/20_memory.md R53, spec/70_reset_and_hazards.md R182): every run completes, steps over presented commands are the
fold of the commands, and several engines run side by side (spec/60_exceptions.md R162). -/

namespace Sys2Proof.Machine

theorem runSteps_completes (n : Nat) (s : State) : ∃ t, runSteps n s = .next t := by
  induction n generalizing s with
  | zero => exact ⟨s, rfl⟩
  | succ n ih =>
    obtain ⟨t, ht⟩ := step_completes s
    rw [runSteps_succ ht]
    exact ih t

/-- Settles O8: no case of a command or of a step stops, and so no run does. -/
theorem everyCommandCompletes : Obligations.EveryCommandCompletes :=
  ⟨exec_completes, step_completes, runSteps_completes⟩

theorem runSteps_add {m : Nat} {s t : State} (h : runSteps m s = .next t) (n : Nat) :
    runSteps (m + n) s = runSteps n t := by
  induction m generalizing s with
  | zero =>
    obtain rfl : s = t := by simpa [runSteps] using h
    rw [Nat.zero_add]
  | succ m ih =>
    obtain ⟨u, hu⟩ := step_completes s
    rw [runSteps_succ hu] at h
    rw [Nat.add_right_comm, runSteps_succ hu, ih h]

/-- The step over a presented command runs the command, which neither reads nor changes what is presented next. -/
theorem step_of_presentInstr {s : State} {i : Instr} {ps : List PortSample}
    (hp : s.port = presentCommand (encode i) :: ps) : step s = exec i { s with port := ps } := by
  rw [step_of_presentCommand hp, runWord_command (decode_encode i)]

/-- Settles O7, by induction on the commands: each step takes one sample off the port and runs its command. -/
theorem stepsFoldTheCommandRules : Obligations.StepsFoldTheCommandRules := by
  intro cs s ps hport
  induction cs generalizing s with
  | nil =>
    have hs : s = { s with port := ps } := State.ext rfl rfl rfl rfl rfl rfl hport rfl
    rw [← hs]
    rfl
  | cons i cs ih =>
    generalize hrest : (cs.map fun i => presentCommand (encode i)) ++ ps = rest at ih
    rw [List.map_cons, List.cons_append, hrest] at hport
    obtain ⟨t, ht⟩ := exec_completes i { s with port := rest }
    have hrun : exec i { s with port := ps } = .next { t with port := ps } := exec_withPort ht ps
    have htport : t.port = rest := (exec_keeps_port ht).1
    rw [List.length_cons, runSteps_succ ((step_of_presentInstr hport).trans ht), runCommands_cons hrun]
    exact ih t htport

section Engines

/-- A step of engine `k` is one step of that engine and no step of any other. -/
theorem stepEngine_spec (k : Nat) (es : Engines) : ∃ es', stepEngine k es = .next es' ∧ es'.length = es.length ∧
    ∀ (j : Nat) (s : State), es[j]? = some s → ∃ t, es'[j]? = some t ∧ runSteps ([k].count j) s = .next t := by
  cases hk : es[k]? with
  | none =>
    refine ⟨es, by rw [stepEngine, hk], rfl, fun j s hj => ⟨s, hj, ?_⟩⟩
    have hne : k ≠ j := by
      rintro rfl
      rw [hk] at hj
      cases hj
    rw [List.count_singleton, if_neg (by simpa using hne)]
    rfl
  | some s₀ =>
    obtain ⟨t₀, ht₀⟩ := step_completes s₀
    refine ⟨es.set k t₀, by simp only [stepEngine, hk, ht₀], List.length_set, fun j s hj => ?_⟩
    by_cases hjk : k = j
    · subst hjk
      obtain rfl : s₀ = s := Option.some.inj (hk.symm.trans hj)
      have hlt : k < es.length := (List.getElem?_eq_some_iff.1 hk).1
      refine ⟨t₀, List.getElem?_set_self hlt, ?_⟩
      rw [List.count_singleton_self, runSteps_succ ht₀]
      rfl
    · refine ⟨s, by rw [List.getElem?_set_ne hjk, hj], ?_⟩
      rw [List.count_singleton, if_neg (by simpa using hjk)]
      rfl

/-- Settles O47, by induction on the schedule: each entry is one step of one engine and none of the others. -/
theorem enginesAreIndependent : Obligations.EnginesAreIndependent := by
  intro ks
  induction ks with
  | nil => exact fun es => ⟨es, rfl, rfl, fun j s hj => ⟨s, hj, rfl⟩⟩
  | cons k ks ih =>
    intro es
    obtain ⟨es₁, hstep, hlen₁, hes₁⟩ := stepEngine_spec k es
    obtain ⟨es₂, hrun, hlen₂, hes₂⟩ := ih es₁
    refine ⟨es₂, by simp only [runEngines, hstep, hrun], hlen₂.trans hlen₁, fun j s hj => ?_⟩
    obtain ⟨t, ht, hst⟩ := hes₁ j s hj
    obtain ⟨u, hu, htu⟩ := hes₂ j t ht
    refine ⟨u, hu, ?_⟩
    rw [← List.singleton_append, List.count_append, runSteps_add hst, htu]

end Engines

end Sys2Proof.Machine
end

section
/-! The bytes written (spec/10_state.md R35, R38, spec/43_finalizer.md R132 to R136): which stores FINAL makes, and what has been
written after them. -/

namespace Sys2Proof.Machine

section Stores
variable (l : List (Offset × Byte)) {s t : State}

/-- What stores leave in `BUF` depends on `BUF` alone. -/
theorem storeAll_buf_congr (h : s.buf = t.buf) : (storeAll l s).buf = (storeAll l t).buf := by
  rw [storeAll_eq, storeAll_eq, h]

/-- Stores inside the address space keep the canonical form. -/
theorem wf_storeAll (h : s.buf.wf) : (storeAll l s).buf.wf := by
  induction l generalizing s with
  | nil => exact h
  | cons c l ih => exact ih (Memory.wf_store h c.1.isLt c.2)

/-- A byte has been written after stores when one of them goes to it, or it had been written before. -/
theorem isSome_lookup_storeAll (k : Offset) : ((storeAll l s).buf.lookup k.toNat).isSome ↔
    (∃ v, (k, v) ∈ l) ∨ (s.buf.lookup k.toNat).isSome := by
  induction l generalizing s with
  | nil => simp
  | cons c l ih =>
    obtain ⟨o, v⟩ := c
    rw [storeAll_cons, ih, memWriteByte_buf, Memory.lookup_store]
    by_cases hok : o = k
    · subst hok
      simp
    · have hne : o.toNat ≠ k.toNat := fun h => hok (BitVec.eq_of_toNat_eq h)
      simp [hne, Ne.symm hok]

end Stores

/-- The stores that start a second block, where the padding needs one (R134). -/
def spillStores (rem : Offset) : List (Offset × Byte) := if needsSecondBlock rem then freshStores else []

/-- The byte stores of FINAL, in order: the padding, the fresh second block if there is one, the length field. -/
def finalStores (s : State) : List (Offset × Byte) :=
  padStores s.cur ++
    (spillStores s.cur ++ (wordStores lengthHiIndex (lengthHi s.len) ++ wordStores lengthLoIndex (lengthLo s.len)))

section FinalStores
variable (s : State)

theorem spillBlock_buf (rem : Offset) :
    (spillBlock rem s).buf = (storeAll (spillStores rem) s).buf := by
  rw [spillBlock_eq, spillStores]
  split
  · exact storeAll_buf_congr _ (compress_buf s)
  · rfl

/-- The block that FINAL compresses last is the work of its stores. -/
theorem writeLength_spillBlock_buf :
    (writeLength (spillBlock s.cur (storeAll (padStores s.cur) s))).buf = (storeAll (finalStores s) s).buf := by
  rw [writeLength_eq, spillBlock_len, storeAll_len, finalStores, storeAll_append (padStores _),
    storeAll_append (spillStores _)]
  exact storeAll_buf_congr _ (spillBlock_buf _ _)

theorem finalState_buf : (finalState s).buf = (storeAll (finalStores s) s).buf := by
  rw [finalState, setDone_buf, compress_buf, writeLength_spillBlock_buf]

variable {s} (hs : s.bufWritten)
include hs

/-- The padding writes every byte that the partial block has not (R132, R133). -/
theorem isSome_lookup_padStores (k : Offset) : ((storeAll (padStores s.cur) s).buf.lookup k.toNat).isSome := by
  rw [isSome_lookup_storeAll]
  by_cases hk : k < s.cur
  · exact .inr (hs k (.inr hk))
  · rw [BitVec.lt_def] at hk
    have hlt := k.isLt
    refine .inl ?_
    by_cases hcur : k = s.cur
    · exact ⟨padByte, by rw [padStores, hcur]; exact List.mem_cons_self⟩
    · have hne : k.toNat ≠ s.cur.toNat := fun h => hcur (BitVec.eq_of_toNat_eq h)
      exact ⟨0, List.mem_cons_of_mem _ ((mem_zeroStores (by omega)).2 ⟨rfl, by omega, by omega⟩)⟩

theorem isSome_lookup_finalStores (k : Offset) : ((storeAll (finalStores s) s).buf.lookup k.toNat).isSome := by
  rw [finalStores, storeAll_append, isSome_lookup_storeAll]
  exact .inr (isSome_lookup_padStores hs k)

/-- A WRITE writes the byte at the cursor. -/
theorem isSome_lookup_storeAtCursor (d : Byte) {k : Offset} (hk : k ≤ s.cur) :
    ((storeAtCursor d s).buf.lookup k.toNat).isSome := by
  rw [storeAtCursor_buf, Memory.lookup_store]
  split
  · rfl
  · next hne => exact hs k (.inr (by bv_omega))

end FinalStores

/-- Settles O44: WRITE at the last offset and the padding of FINAL write what is missing; no later store takes it back. -/
theorem compressedBlocksAreWritten : Obligations.CompressedBlocksAreWritten := by
  intro s hinv _
  refine ⟨fun d hcur k => isSome_lookup_storeAtCursor hinv.bufWritten d (by bv_omega),
    isSome_lookup_padStores hinv.bufWritten, fun k => ?_⟩
  rw [writeLength_spillBlock_buf]
  exact isSome_lookup_finalStores hinv.bufWritten k

end Sys2Proof.Machine
end

section
/-! One edge (spec/30_encoding.md R60, spec/70_reset_and_hazards.md R170): the four things that an edge can do, and the invariant
that each keeps. -/

namespace Sys2Proof.Machine

/-- Does the edge add a byte to the message? -/
def absorbsByte (p : PortSample) (s : State) : Bool :=
  acceptsWrite p && s.phase = .absorb && s.len.toNat < 2 ^ 61 - 1

theorem ne_lenMax_iff {n : Length} : n ≠ lenMax ↔ n.toNat < 2 ^ 61 - 1 := by
  refine ⟨fun hne => ?_, ne_lenMax_of_toNat_lt⟩
  have hlt := n.isLt
  have hnat : n.toNat ≠ 2 ^ 61 - 1 := fun h => hne (BitVec.eq_of_toNat_eq h)
  omega

theorem absorbsByte_iff {p : PortSample} {s : State} :
    absorbsByte p s = true ↔ acceptsWrite p = true ∧ s.phase = .absorb ∧ s.len ≠ lenMax := by
  rw [absorbsByte, Bool.and_eq_true, Bool.and_eq_true, decide_eq_true_iff, decide_eq_true_iff, ne_lenMax_iff, and_assoc]

/-- What an edge with the sample `p` makes of the engine `s`, the sample taken off the port. -/
inductive EdgeEffect (p : PortSample) (s t : State) : Prop where
  /-- Reset or INIT. -/
  | begins (hb : beginsDigest p = true) (hf : acceptsFinal p = false) (ht : t = hardwareReset s ∨ t = beginDigest s)
  /-- A WRITE that does not fault. -/
  | writes (d : Byte) (hb : beginsDigest p = false) (hf : acceptsFinal p = false) (ha : absorbsByte p s = true)
    (ht : t = writeState d s)
  /-- A FINAL that does not fault. -/
  | finalizes (hb : beginsDigest p = false) (hf : acceptsFinal p = true) (ha : absorbsByte p s = false)
    (hphase : s.phase = .absorb) (ht : t = finalState s)
  /-- An idle edge, or a refused word. -/
  | holds (hb : beginsDigest p = false) (hf : acceptsFinal p = true → s.phase = .done) (ha : absorbsByte p s = false)
    (ht : t = s ∨ ∃ c, t = recordFault c s)

theorem edgeEffect_of_exec {p : PortSample} {i : Instr} {s t : State} (hr : p.rst = false) (hv : p.valid = true)
    (hd : decode p.cmd = .command i) (h : exec i s = .next t) : EdgeEffect p s t := by
  rcases exec_cases h with ⟨rfl, ht⟩ | ⟨d, rfl, hphase, hlen, ht⟩ | ⟨rfl, hphase, ht⟩ |
    ⟨d, rfl, hphase, hlen, ht⟩ | ⟨hi, hphase, ht⟩
  · exact .begins (by simp [beginsDigest, acceptsInit, hr, hv, hd]) (by simp [acceptsFinal, hd]) (.inr ht)
  · have hw : acceptsWrite p = true := by simp [acceptsWrite, hr, hv, hd]
    exact .writes d (by simp [beginsDigest, acceptsInit, hr, hd]) (by simp [acceptsFinal, hd])
      (absorbsByte_iff.2 ⟨hw, hphase, hlen⟩) ht
  · exact .finalizes (by simp [beginsDigest, acceptsInit, hr, hd]) (by simp [acceptsFinal, hr, hv, hd])
      (by simp [absorbsByte, acceptsWrite, hd]) hphase ht
  · exact .holds (by simp [beginsDigest, acceptsInit, hr, hd]) (by simp [acceptsFinal, hd])
      (by simp [absorbsByte, hlen, lenMax_toNat]) (.inr ⟨_, ht⟩)
  · exact .holds (by simp [beginsDigest, acceptsInit, hr, hd, hi]) (fun _ => hphase) (by simp [absorbsByte, hphase])
      (.inr ⟨_, ht⟩)

/-- Every step that takes a sample is one of the four. -/
theorem edgeEffect_of_step {p : PortSample} {ps : List PortSample} {s t : State} (hport : s.port = p :: ps)
    (h : step s = .next t) : EdgeEffect p s.takeSample t := by
  rcases step_cases h with ⟨hnil, -⟩ | ⟨p', ps', hp', heffect⟩
  · rw [hport] at hnil
    cases hnil
  · obtain ⟨rfl, rfl⟩ : p = p' ∧ ps = ps' := by simpa [hport] using hp'
    rcases heffect with ⟨hr, ht⟩ | ⟨hr, hv, ht⟩ | ⟨hr, hv, i, hd, ht⟩ | ⟨hr, hv, ⟨r, hd⟩, ht⟩
    · exact .begins (by simp [beginsDigest, hr]) (by simp [acceptsFinal, hr]) (.inl ht)
    · exact .holds (by simp [beginsDigest, acceptsInit, hr, hv]) (by simp [acceptsFinal, hv])
        (by simp [absorbsByte, acceptsWrite, hv]) (.inl ht)
    · exact edgeEffect_of_exec hr hv hd ht
    · exact .holds (by simp [beginsDigest, acceptsInit, hr, hd]) (by simp [acceptsFinal, hd])
        (by simp [absorbsByte, acceptsWrite, hd]) (.inr ⟨_, ht⟩)

/-- No fault has the code 0 (spec/60_exceptions.md R150). -/
theorem faultCode_ne_zero (c : FaultCause) : faultCode c ≠ 0 := by
  cases c <;> decide

section Invariant
variable {s : State}

/-- The start of a computation needs no more than the canonical form: the partial block is empty. -/
theorem inv_of_initialValues (hwf : s.buf.wf) (h : s.initialValues) : s.Inv := by
  obtain ⟨-, -, hcur, hphase, herr, herrcode⟩ := h
  refine ⟨hwf, by rw [State.errConsistent, herr, herrcode]; simp, fun k hk => ?_⟩
  rw [hphase, hcur] at hk
  exact absurd (hk.resolve_left nofun) BitVec.not_lt_zero

variable (h : s.Inv)
include h

theorem inv_takeSample : s.takeSample.Inv := ⟨h.memoryWf, h.errConsistent, h.bufWritten⟩

theorem inv_recordFault (c : FaultCause) : (recordFault c s).Inv where
  memoryWf := by
    rw [recordFault_buf]
    exact h.memoryWf
  errConsistent := by
    have hcode := faultCode_ne_zero c
    have hcons := h.errConsistent
    rw [State.errConsistent, recordFault_err, recordFault_errcode]
    cases herr : s.err with
    | false => simpa using hcode
    | true => simpa [State.errConsistent, herr] using hcons
  bufWritten k hk := by
    rw [recordFault_phase, cur_congr (recordFault_len c s)] at hk
    rw [recordFault_buf]
    exact h.bufWritten k hk

theorem inv_writeState (hphase : s.phase = .absorb) (d : Byte) : (writeState d s).Inv where
  memoryWf := by
    rw [writeState_buf]
    exact Memory.wf_store h.memoryWf s.cur.isLt d
  errConsistent := by
    rw [State.errConsistent, writeState_err, writeState_errcode]
    exact h.errConsistent
  bufWritten k hk := by
    rw [writeState_phase, hphase, writeState_cur] at hk
    have hlt : k < s.cur + 1 := hk.resolve_left nofun
    rw [writeState_buf, ← storeAtCursor_buf]
    exact isSome_lookup_storeAtCursor h.bufWritten d (by bv_omega)

theorem inv_finalState : (finalState s).Inv where
  memoryWf := by
    rw [finalState_buf]
    exact wf_storeAll _ h.memoryWf
  errConsistent := by
    rw [State.errConsistent, finalState_err, finalState_errcode]
    exact h.errConsistent
  bufWritten k _ := by
    rw [finalState_buf]
    exact isSome_lookup_finalStores h.bufWritten k

theorem inv_of_edgeEffect {p : PortSample} {t : State} (ht : EdgeEffect p s t) : t.Inv := by
  cases ht with
  | begins hb hf ht =>
    rcases ht with rfl | rfl
    · exact inv_of_initialValues Memory.wf_nil (hardwareReset_initialValues s)
    · exact inv_of_initialValues h.memoryWf (beginDigest_initialValues s)
  | writes d hb hf ha ht =>
    obtain ⟨-, hphase, -⟩ := absorbsByte_iff.1 ha
    exact ht ▸ inv_writeState h hphase d
  | finalizes hb hf ha hphase ht => exact ht ▸ inv_finalState h
  | holds hb hf ha ht =>
    rcases ht with rfl | ⟨c, rfl⟩
    · exact h
    · exact inv_recordFault h c

end Invariant

/-- Settles O42: the reset state has the initial values and nothing in `BUF`. -/
theorem resetHasTheInvariant : Obligations.ResetHasTheInvariant :=
  inv_of_initialValues Memory.wf_nil reset_initialValues

/-- Settles O43: each of the four effects of an edge keeps the invariant. -/
theorem stepKeepsTheInvariant : Obligations.StepKeepsTheInvariant := by
  intro s t h hstep
  cases hport : s.port with
  | nil =>
    obtain rfl : s = t := by
      rw [step_nil hport] at hstep
      injection hstep
    exact h
  | cons p ps => exact inv_of_edgeEffect (inv_takeSample h) (edgeEffect_of_step hport hstep)

end Sys2Proof.Machine
end

section
/-! What changes at an edge and what does not (spec/10_state.md R21 to R28, R35): the record of a fault, `PHASE`, `LEN`, `H` and the
finished digest. -/

namespace Sys2Proof.Machine

/-- A recorded fault and a finished phase are kept (R25, R26). -/
structure KeepsRecord (s t : State) : Prop where
  err : s.err = true → t.err = true
  errcode : s.errcode ≠ 0 → t.errcode ≠ 0
  phase : s.phase = .done → t.phase = .done

theorem keepsRecord_refl (s : State) : KeepsRecord s s := ⟨id, id, id⟩

theorem keepsRecord_recordFault (c : FaultCause) (s : State) : KeepsRecord s (recordFault c s) where
  err _ := recordFault_err c s
  errcode hcode := by
    rw [recordFault_errcode]
    split
    · exact hcode
    · exact faultCode_ne_zero c
  phase hdone := (recordFault_phase c s).trans hdone

section Edge
variable {p : PortSample} {s t : State} (h : EdgeEffect p s t) (hb : beginsDigest p = false)
include h hb

/-- Only an edge that begins a computation clears the record or leaves phase `DONE`. -/
theorem keepsRecord_of_edge : KeepsRecord s t := by
  cases h with
  | begins hb' => simp [hb] at hb'
  | writes d _ _ _ ht => exact ⟨by simp [ht], by simp [ht], by simp [ht]⟩
  | finalizes _ _ _ _ ht => exact ⟨by simp [ht], by simp [ht], by simp [ht]⟩
  | holds _ _ _ ht =>
    rcases ht with rfl | ⟨c, rfl⟩
    · exact keepsRecord_refl t
    · exact keepsRecord_recordFault c s

/-- In phase `DONE` such an edge can at most record a fault. -/
theorem edge_of_done (hdone : s.phase = .done) : t = s ∨ ∃ c, t = recordFault c s := by
  cases h with
  | begins hb' => simp [hb] at hb'
  | writes _ _ _ ha => simp [absorbsByte_iff, hdone] at ha
  | finalizes _ _ _ hphase => simp [hdone] at hphase
  | holds _ _ _ ht => exact ht

end Edge

theorem not_cleared_of_keepsRecord {s t : State} (h : KeepsRecord s t) :
    ¬ ((s.err = true ∧ t.err = false) ∨ (s.errcode ≠ 0 ∧ t.errcode = 0) ∨ (s.phase = .done ∧ t.phase = .absorb)) := by
  rintro (⟨herr, hclear⟩ | ⟨hcode, hclear⟩ | ⟨hdone, hopen⟩)
  · simp [h.err herr] at hclear
  · exact h.errcode hcode hclear
  · simp [h.phase hdone] at hopen

/-- Settles O38: a step that takes no sample, or one that begins no computation, keeps the record and the phase. -/
theorem onlyInitOrResetClearsAndReopens : Obligations.OnlyInitOrResetClearsAndReopens := by
  intro s t hstep hcleared
  cases hport : s.port with
  | nil =>
    obtain rfl : s = t := by
      rw [step_nil hport] at hstep
      injection hstep
    exact absurd hcleared (not_cleared_of_keepsRecord (keepsRecord_refl s))
  | cons p ps =>
    refine ⟨p, ps, rfl, ?_⟩
    by_contra hb
    rw [Bool.not_eq_true] at hb
    exact not_cleared_of_keepsRecord (keepsRecord_of_edge (edgeEffect_of_step hport hstep) hb) hcleared

section Finished

/-- What the host sees of a finished digest, and the state it is read from (R28, R35). -/
structure KeepsDigest (s t : State) : Prop where
  phase : t.phase = s.phase
  h : t.h = s.h
  len : t.len = s.len
  bufByte : ∀ k, t.bufByte k = s.bufByte k

theorem keepsDigest_recordFault (c : FaultCause) (s : State) : KeepsDigest s (recordFault c s) :=
  ⟨recordFault_phase c s, recordFault_h c s, recordFault_len c s, fun k => bufByte_recordFault s k c⟩

/-- In phase `DONE` a step that begins no computation keeps the digest. -/
theorem keepsDigest_of_step {s t : State} (hdone : s.phase = .done)
    (hb : ∀ p ps, s.port = p :: ps → beginsDigest p = false) (hstep : step s = .next t) : KeepsDigest s t := by
  cases hport : s.port with
  | nil =>
    rw [step_nil hport] at hstep
    injection hstep with hst
    exact hst ▸ ⟨rfl, rfl, rfl, fun _ => rfl⟩
  | cons p ps =>
    rcases edge_of_done (edgeEffect_of_step hport hstep) (hb p ps hport) hdone with rfl | ⟨c, rfl⟩
    · exact ⟨rfl, rfl, rfl, fun _ => rfl⟩
    · obtain ⟨hphase, hh, hlen, hbyte⟩ := keepsDigest_recordFault c s.takeSample
      exact ⟨hphase, hh, hlen, hbyte⟩

/-- Settles O39: the digest and its port are read from `PHASE` and `H`, which such a step keeps. -/
theorem finishedDigestIsImmutable : Obligations.FinishedDigestIsImmutable := by
  intro s hdone hb
  obtain ⟨t, ht⟩ := step_completes s
  obtain ⟨hphase, hh, hlen, hbyte⟩ := keepsDigest_of_step hdone hb ht
  refine ⟨t, ht, hphase.trans hdone, hh, hlen, hbyte, ?_, ?_⟩
  · simp only [State.digest, hphase, hh]
  · simp only [State.outputs, hphase, hh]

end Finished

section LenAndHash

variable {p : PortSample} {s t : State} (h : EdgeEffect p s t)
include h

/-- `LEN` counts the bytes absorbed since the last start of a computation (R23). -/
theorem len_of_edge :
    t.len.toNat = if beginsDigest p then 0 else if absorbsByte p s then s.len.toNat + 1 else s.len.toNat := by
  cases h with
  | begins hb hf ht =>
    rw [if_pos hb]
    rcases ht with rfl | rfl <;> rfl
  | writes d hb hf ha ht =>
    obtain ⟨-, -, hlen⟩ := absorbsByte_iff.1 ha
    rw [hb, if_neg Bool.false_ne_true, if_pos ha, ht, writeState_len, len_succ_toNat hlen]
  | finalizes hb hf ha hphase ht =>
    rw [hb, if_neg Bool.false_ne_true, ha, if_neg Bool.false_ne_true, ht, finalState_len]
  | holds hb hf ha ht =>
    rw [hb, if_neg Bool.false_ne_true, ha, if_neg Bool.false_ne_true]
    rcases ht with rfl | ⟨c, rfl⟩
    · rfl
    · rw [recordFault_len]

/-- Outside FINAL, `H` is compressed exactly where a WRITE fills the buffer (R21). -/
theorem hash_of_edge (hb : beginsDigest p = false) (hf : acceptsFinal p = false) :
    t.h = if absorbsByte p s && s.len.toNat % 64 = 63 then compressionFunction s.h t.block else s.h := by
  cases h with
  | begins hb' => simp [hb] at hb'
  | writes d _ _ ha ht =>
    obtain ⟨-, -, hlen⟩ := absorbsByte_iff.1 ha
    have hfull : (s.len.toNat + 1) % 64 = 0 ↔ s.len.toNat % 64 = 63 := by omega
    rw [ht, writeState_h_of_len hlen, ha, Bool.true_and]
    simp only [hfull, decide_eq_true_iff]
  | finalizes _ hf' => simp [hf] at hf'
  | holds _ _ ha ht =>
    rw [ha, Bool.false_and, if_neg Bool.false_ne_true]
    rcases ht with rfl | ⟨c, rfl⟩
    · rfl
    · rw [recordFault_h]

theorem hash_of_begins (hb : beginsDigest p = true) : t.h = iv := by
  cases h with
  | begins _ _ ht => rcases ht with rfl | rfl <;> rfl
  | writes d hb' => simp [hb] at hb'
  | finalizes hb' => simp [hb] at hb'
  | holds hb' => simp [hb] at hb'

/-- An edge that accepts FINAL in phase `ABSORB` runs it. -/
theorem edge_of_final (hf : acceptsFinal p = true) (hphase : s.phase = .absorb) : t = finalState s := by
  cases h with
  | begins _ hf' => simp [hf] at hf'
  | writes d _ hf' => simp [hf] at hf'
  | finalizes _ _ _ _ ht => exact ht
  | holds _ hf' => simp [hf' hf] at hphase

theorem beginsDigest_of_final (hf : acceptsFinal p = true) : beginsDigest p = false := by
  cases h with
  | begins _ hf' => simp [hf] at hf'
  | writes _ hb => exact hb
  | finalizes hb => exact hb
  | holds hb => exact hb

end LenAndHash

/-- Settles O40: the port takes no part in what the edge does to `LEN`. -/
theorem lengthCountsTheAbsorbedBytes : Obligations.LengthCountsTheAbsorbedBytes := by
  intro s t p ps hport hstep
  have hlen := len_of_edge (edgeEffect_of_step hport hstep)
  exact hlen

/-- Settles O41, by the kind of sample: a start, FINAL in its three cases, or any other. -/
theorem hashStateChangesByCompressionAlone : Obligations.HashStateChangesByCompressionAlone := by
  intro s t p ps hport hstep
  have hedge := edgeEffect_of_step hport hstep
  refine ⟨hash_of_begins hedge, fun hb hf => ?others, fun hf habsorb hone => ?oneBlock,
    fun hf habsorb htwo => ?twoBlocks, fun hf hdone => ?refused⟩
  case others =>
    have hh := hash_of_edge hedge hb hf
    exact hh
  case oneBlock =>
    rw [edge_of_final hedge hf habsorb, finalState_h_one (s := s.takeSample) hone, takeSample_h]
  case twoBlocks =>
    have hpadded : paddedByte s.takeSample = paddedByte s := rfl
    rw [edge_of_final hedge hf habsorb, finalState_h_two (s := s.takeSample) htwo, takeSample_h, block_padStores_cur,
      hpadded]
  case refused =>
    rcases edge_of_done hedge (beginsDigest_of_final hedge hf) hdone with rfl | ⟨c, rfl⟩
    · rfl
    · rw [recordFault_h, takeSample_h]

end Sys2Proof.Machine
end

section
/-! Faults and command sequences (spec/60_exceptions.md R153, R160, spec/70_reset_and_hazards.md R173): what a refused WRITE leaves
legal, that a recorded fault stops nothing, and which sequences record none. -/

namespace Sys2Proof.Machine

/-- Settles O34: WRITE is refused, while FINAL does not look at `LEN`. -/
theorem lengthOverflowIsRefused : Obligations.LengthOverflowIsRefused := by
  intro s d habsorb hmax
  have hl : s.len = lenMax := BitVec.eq_of_toNat_eq (hmax.trans lenMax_toNat.symm)
  refine ⟨?_, finalState s, exec_final habsorb, finalState_phase s, finalState_err s, finalState_len s⟩
  rw [exec_write_full habsorb hl, recordFault_eq]
  rfl

section Record
variable (e : Bool) (c : BitVec 2) (s : State)

/-- The state with another record of faults. -/
def State.withRecord (s : State) (e : Bool) (c : BitVec 2) : State := { s with err := e, errcode := c }

theorem bufByte_withRecord (k : Offset) : (s.withRecord e c).bufByte k = s.bufByte k := rfl

/-- The record has no part in any effect of WRITE. -/
theorem writeState_withRecord (d : Byte) : writeState d (s.withRecord e c) = (writeState d s).withRecord e c := by
  have hcur : (writeState d (s.withRecord e c)).cur = (writeState d s).cur := by
    rw [writeState_cur, writeState_cur]
    rfl
  have hblock : (writeState d (s.withRecord e c)).block = (writeState d s).block :=
    block_congr fun k => by
      rw [bufByte_writeState, bufByte_writeState]
      rfl
  have hh : (writeState d (s.withRecord e c)).h = (writeState d s).h := by
    rw [writeState_h, writeState_h, hcur, hblock]
    rfl
  refine State.ext hh ?_ ?_ ?_ ?_ ?_ ?_ ?_ <;> simp [State.withRecord]

/-- The record has no part in any effect of FINAL. -/
theorem finalState_withRecord : finalState (s.withRecord e c) = (finalState s).withRecord e c := by
  have hbuf : (finalState (s.withRecord e c)).buf = (finalState s).buf := by
    rw [finalState_buf, finalState_buf]
    exact storeAll_buf_congr (finalStores s) rfl
  have hblock : (finalState (s.withRecord e c)).block = (finalState s).block :=
    block_congr (bufByte_congr hbuf (by simp [State.withRecord]))
  have hpadded : paddedByte (s.withRecord e c) = paddedByte s := rfl
  have hh : (finalState (s.withRecord e c)).h = (finalState s).h := by
    rw [finalState_h, finalState_h, hblock, block_padStores_cur, block_padStores_cur, hpadded]
    rfl
  refine State.ext hh hbuf ?_ ?_ ?_ ?_ ?_ ?_ <;> simp [State.withRecord]

/-- A command takes states that differ in their record alone to such states. -/
theorem exec_withRecord {i : Instr} {s t : State} (h : exec i s = .next t) :
    ∃ e' c', exec i (s.withRecord e c) = .next (t.withRecord e' c') := by
  rcases exec_cases h with ⟨rfl, rfl⟩ | ⟨d, rfl, hphase, hlen, rfl⟩ | ⟨rfl, hphase, rfl⟩ |
    ⟨d, rfl, hphase, hlen, rfl⟩ | ⟨hi, hphase, rfl⟩
  · exact ⟨false, 0, exec_init _⟩
  · refine ⟨e, c, ?_⟩
    rw [← writeState_withRecord]
    exact exec_write (s := s.withRecord e c) hphase hlen d
  · refine ⟨e, c, ?_⟩
    rw [← finalState_withRecord]
    exact exec_final (s := s.withRecord e c) hphase
  · refine ⟨true, if e then c else faultCode .lengthOverflow, ?_⟩
    rw [exec_write_full (s := s.withRecord e c) hphase hlen, recordFault_eq, recordFault_eq]
    rfl
  · refine ⟨true, if e then c else faultCode .reuseAfterFinalize, ?_⟩
    rw [exec_done (s := s.withRecord e c) hphase hi, recordFault_eq, recordFault_eq]
    rfl

end Record

/-- Settles O36: the two next states differ in their record alone. -/
theorem recordedFaultStopsNothing : Obligations.RecordedFaultStopsNothing := by
  intro i s t e c h
  obtain ⟨e', c', hu⟩ := exec_withRecord e c h
  exact ⟨t.withRecord e' c', hu, rfl, rfl, rfl, rfl, rfl, rfl⟩

/-- A legal sequence begins with a command that records no fault, and goes on legally (R173). -/
theorem exec_of_legalFrom {i : Instr} {cs : List Instr} {s : State} (herr : s.err = false)
    (hlegal : legalFrom s.phase s.len.toNat (i :: cs) = true) :
    ∃ t, exec i s = .next t ∧ t.err = false ∧ legalFrom t.phase t.len.toNat cs = true := by
  cases i with
  | init =>
    simp only [legalFrom] at hlegal
    exact ⟨beginDigest s, exec_init s, rfl, hlegal⟩
  | write d =>
    cases hphase : s.phase with
    | done => simp [hphase, legalFrom] at hlegal
    | absorb =>
      simp only [hphase, legalFrom, Bool.and_eq_true, decide_eq_true_iff] at hlegal
      obtain ⟨hlt, hlegal⟩ := hlegal
      have hl : s.len ≠ lenMax := ne_lenMax_of_toNat_lt hlt
      refine ⟨writeState d s, exec_write hphase hl d, (writeState_err d s).trans herr, ?_⟩
      rwa [writeState_phase, hphase, writeState_len, len_succ_toNat hl]
  | final =>
    cases hphase : s.phase with
    | done => simp [hphase, legalFrom] at hlegal
    | absorb =>
      simp only [hphase, legalFrom] at hlegal
      refine ⟨finalState s, exec_final hphase, (finalState_err s).trans herr, ?_⟩
      rwa [finalState_phase, finalState_len]

/-- Settles O37, by induction on the sequence. -/
theorem legalSequencesNeverFault : Obligations.LegalSequencesNeverFault := by
  intro cs
  induction cs with
  | nil => exact fun s herr _ => ⟨s, rfl, herr⟩
  | cons i cs ih =>
    intro s herr hlegal
    obtain ⟨t, ht, hterr, htlegal⟩ := exec_of_legalFrom herr hlegal
    rw [runCommands_cons ht]
    exact ih t hterr htlegal

theorem runCommands_singleton {i : Instr} {s t : State} (h : exec i s = .next t) : runCommands [i] s = .next t := by
  rw [runCommands_cons h]
  rfl

/-- Settles O12: the start of a computation forgets an earlier start; the second FINAL meets phase `DONE` with no fault
recorded. -/
theorem initIsIdempotent : Obligations.InitIsIdempotent := by
  refine ⟨fun s => ?idempotent, fun s => ?secondFinal⟩
  case idempotent =>
    have hforgets : beginDigest (beginDigest s) = beginDigest s := rfl
    rw [runCommands_cons (exec_init s), runCommands_singleton (exec_init s), runCommands_singleton (exec_init _),
      hforgets]
  case secondFinal =>
    generalize ht : finalState (beginDigest s) = t
    have hfinal : exec .final (beginDigest s) = .next t := by rw [exec_final (beginDigest_phase s), ht]
    have hphase : t.phase = .done := by rw [← ht, finalState_phase]
    have herr : t.err = false := by rw [← ht, finalState_err, beginDigest_err]
    refine ⟨t, recordFault .reuseAfterFinalize t, ?_, ?_, herr, recordFault_of_noFault herr _⟩
    · rw [runCommands_cons (exec_init s), runCommands_singleton hfinal]
    · rw [runCommands_cons (exec_init s), runCommands_cons hfinal, runCommands_singleton (exec_final_done hphase)]

end Sys2Proof.Machine
end

section
/-! The command port and the pseudo-commands (spec/30_encoding.md R60, R63, R69, spec/60_exceptions.md R165). -/

namespace Sys2Proof.Machine

/-- Settles O1: three encodings read back, and one word of each reserved kind. -/
theorem tableWordsDecode : Obligations.TableWordsDecode :=
  ⟨decode_encode .init, decode_encode (.write 0x61), decode_encode (.write 0xff), decode_encode .final,
    decode_eq_initData (by decide) (by decide), decode_eq_finalData (by decide) (by decide), decode_eq_op11 (by decide)⟩

theorem step_present (s : State) (i : Instr) : step (s.present (encode i)) = exec i s :=
  step_of_presentInstr (present_port s (encode i))

/-- The opcode table's number of an encoding is read back as the command. -/
theorem decodeTableWord_encode (nbits : Nat) (i : Instr) : decodeTableWord nbits (encode i).toNat = some i := by
  rw [decodeTableWord, if_pos (encode i).isLt, BitVec.ofNat_toNat, BitVec.setWidth_eq, decode_encode]

/-- Settles O4: a step runs the presented word, and an encoding decodes to its command, by its number too. -/
theorem stepRunsThePresentedCommand : Obligations.StepRunsThePresentedCommand := by
  refine ⟨fun s w ps i hp hw => ?presented, step_present,
    fun s nbits i => ⟨decodeTableWord_encode nbits i, ?numbered⟩⟩
  case presented => rw [step_of_presentCommand hp, runWord_command hw]
  case numbered => rw [State.withFetchWord, BitVec.ofNat_toNat, BitVec.setWidth_eq, step_present]

/-- Settles O6: no sample, or one that presents nothing. -/
theorem engineHoldsStateBetweenCommands : Obligations.EngineHoldsStateBetweenCommands := by
  refine ⟨fun s => step_nil, fun s p ps hp hr hv => ?idle⟩
  case idle => rw [step_cons hp, takeSample_of_port hp, acceptSample, hr, hv, if_neg nofun, if_neg nofun]

/-- The word of a WRITE of a byte numeral (R63). -/
theorem encode_write_ofNat_toNat {b : Nat} (hb : b < 256) : (encode (.write (BitVec.ofNat 8 b))).toNat = 256 + b := by
  rw [encode, cmd10_toNat, BitVec.toNat_ofNat, Nat.mod_eq_of_lt hb]
  rfl

/-- Settles O9: each byte stands for one WRITE, whose word is its number. -/
theorem pseudoCommandsExpandToWrites : Obligations.PseudoCommandsExpandToWrites := by
  refine ⟨fun bs hwf => ?update, fun n b hwf => ?updateRep, rfl⟩
  case update =>
    have hlt : ∀ b ∈ bs, b < 256 := by simpa [AsmLine.wf] using hwf
    simp only [assemble, List.flatMap_singleton, AsmLine.commands, List.map_map]
    exact List.map_congr_left fun b hb => encode_write_ofNat_toNat (hlt b hb)
  case updateRep =>
    have hlt : b < 256 := by simpa [AsmLine.wf] using hwf
    simp only [assemble, List.flatMap_singleton, AsmLine.commands, List.map_replicate, encode_write_ofNat_toNat hlt]

end Sys2Proof.Machine
end

section
/-! The word functions bit by bit (spec/42_compression_core.md R106, R107, R110 to R113), and the constants
(spec/10_state.md R32, R114). -/

namespace Sys2Proof.Machine

section Rotate
variable {n : Nat} (x : Word)

/-- The two parts of a rotation have no bit in common, so they add up (R106). -/
theorem rotr_toNat (hn : n < 32) : (rotr n x).toNat = x.toNat / 2 ^ n + x.toNat % 2 ^ n * 2 ^ (32 - n) := by
  have hpow : 2 ^ 32 = 2 ^ n * 2 ^ (32 - n) := by rw [← Nat.pow_add, Nat.add_sub_cancel' hn.le]
  have hlow : x.toNat / 2 ^ n < 2 ^ (32 - n) := Nat.div_lt_of_lt_mul (hpow ▸ x.isLt)
  rw [rotr, BitVec.toNat_or, BitVec.toNat_ushiftRight, BitVec.toNat_shiftLeft, Nat.shiftRight_eq_div_pow,
    Nat.shiftLeft_eq, hpow, Nat.mul_mod_mul_right, Nat.or_comm, ← Nat.shiftLeft_eq,
    ← Nat.shiftLeft_add_eq_or_of_lt hlow, Nat.add_comm]

/-- Bit `i` of a rotation (R106). -/
theorem rotr_getLsbD (hn : n < 32) {i : Nat} (hi : i < 32) : (rotr n x).getLsbD i = x.getLsbD ((i + n) % 32) := by
  rw [rotr, BitVec.getLsbD_or, BitVec.getLsbD_ushiftRight, BitVec.getLsbD_shiftLeft]
  by_cases hlt : i < 32 - n
  · have hindex : (i + n) % 32 = n + i := by omega
    simp [hlt, hindex]
  · have hindex : (i + n) % 32 = i - (32 - n) := by omega
    simp [hi, hlt, hindex, BitVec.getLsbD_of_ge x (n + i) (by omega)]

theorem shr_toNat (n : Nat) : (shr n x).toNat = x.toNat / 2 ^ n := by
  rw [shr, BitVec.toNat_ushiftRight, Nat.shiftRight_eq_div_pow]

/-- Bit `i` of a shift: zeros enter at the top (R107). -/
theorem shr_getLsbD (n i : Nat) : (shr n x).getLsbD i = (decide (i + n < 32) && x.getLsbD (i + n)) := by
  rw [shr, BitVec.getLsbD_ushiftRight, Nat.add_comm]
  by_cases hlt : i + n < 32
  · simp [hlt]
  · simp [hlt, BitVec.getLsbD_of_ge x (i + n) (by omega)]

end Rotate

/-- Settles O19: the two parts of a rotation are disjoint, as numbers and bit by bit. -/
theorem rotationAndShift : Obligations.RotationAndShift :=
  fun n x _ hn => ⟨rotr_toNat x hn, fun _ hi => rotr_getLsbD x hn hi, shr_toNat x n⟩

/-- Settles O21: each sigma function is the exclusive or of three rotations or shifts, whose bits are known. -/
theorem sigmaFunctionsBitByBit : Obligations.SigmaFunctionsBitByBit := by
  intro x i hi
  have hrot {n : Nat} (hn : n < 32) : (rotr n x).getLsbD i = x.getLsbD ((i + n) % 32) := rotr_getLsbD x hn hi
  refine ⟨?_, ?_, ?_, ?_⟩
  · simp only [bigSigma0, BitVec.getLsbD_xor, hrot, Nat.reduceLT]
  · simp only [bigSigma1, BitVec.getLsbD_xor, hrot, Nat.reduceLT]
  · simp only [smallSigma0, BitVec.getLsbD_xor, hrot, shr_getLsbD, Nat.reduceLT]
  · simp only [smallSigma1, BitVec.getLsbD_xor, hrot, shr_getLsbD, Nat.reduceLT]

section Constants

/-- The first 64 primes, by trial division. -/
def firstPrimes : List Nat :=
  (List.range 312).filter fun p => 1 < p && (List.range p).all fun q => q < 2 || p % q != 0

/-- The integer part of the cube root of a prime below 343. -/
def cubeRootFloor (p : Nat) : Nat := ((List.range 7).filter fun r => r ^ 3 ≤ p).length - 1

/-- Integer part and fractional bits together: the cube root of prime `j`, scaled by `2^32`. -/
def scaledCubeRoot (j : Nat) : Nat :=
  cubeRootFloor (firstPrimes.getD j 0) * 2 ^ 32 + (roundConstants.getD j 0).toNat

theorem firstPrimes_length : firstPrimes.length = 64 := by decide +kernel

theorem iv_eq_sqrt : ∀ i : Fin 8, iv[i].toNat = Nat.sqrt (firstPrimes.getD i.val 0 * 2 ^ 64) % 2 ^ 32 := by
  decide +kernel

theorem scaledCubeRoot_spec : ∀ j < 64, scaledCubeRoot j ^ 3 ≤ firstPrimes.getD j 0 * 2 ^ 96 ∧
    firstPrimes.getD j 0 * 2 ^ 96 < (scaledCubeRoot j + 1) ^ 3 := by decide +kernel

end Constants

/-- Settles O22: the roots themselves are checked, on numbers, by their defining inequalities. -/
theorem constantsAreRootsOfPrimes : Obligations.ConstantsAreRootsOfPrimes := by
  refine ⟨firstPrimes_length, rfl, iv_eq_sqrt, fun j hj => ?cubeRoot⟩
  case cubeRoot =>
    obtain ⟨hle, hlt⟩ := scaledCubeRoot_spec j hj
    refine ⟨scaledCubeRoot j, hle, hlt, ?_⟩
    rw [scaledCubeRoot, Nat.mul_add_mod_self_right, Nat.mod_eq_of_lt (BitVec.isLt _)]

end Sys2Proof.Machine
end

section
/-! COMPRESS and the digest (spec/42_compression_core.md R103 to R105, R119, spec/10_state.md R28): the rounds one by one, the
frame, and the big-endian serialisation. -/

namespace Sys2Proof.Machine

section Rounds
variable (s : HashState) (w : List Word)

theorem workingAt_zero : workingAt s w 0 = loadWorking s := rfl

/-- Round `j` takes the working variables at its start to those at the start of the next (R104). -/
theorem workingAt_succ {j : Nat} (hj : j < 64) (hw : w.length = 64) :
    workingAt s w (j + 1) = compressionRound (workingAt s w j) (roundConstants.getD j 0) (scheduleAt w j) := by
  have hk : j < roundConstants.length := hj
  have hwj : j < w.length := hw ▸ hj
  have hzip : j < (roundConstants.zip w).length := by rw [List.length_zip]; omega
  have hentry : (roundConstants.zip w)[j] = (roundConstants.getD j 0, scheduleAt w j) := by
    rw [List.getElem_zip, scheduleAt, List.getD_eq_getElem _ _ hk, List.getD_eq_getElem _ _ hwj]
  rw [workingAt, List.take_succ_eq_append_getElem hzip, hentry, rounds, List.foldl_append]
  rfl

theorem allRounds_eq_workingAt (hw : w.length = 64) : allRounds (loadWorking s) w = workingAt s w 64 := by
  have hk : roundConstants.length = 64 := rfl
  rw [allRounds, workingAt, List.take_of_length_le (by rw [List.length_zip]; omega)]

theorem feedForward_toList (v : Working) : (feedForward s v).toList.map BitVec.toNat =
    (s.toList.zip [v.a, v.b, v.c, v.d, v.e, v.f, v.g, v.h]).map fun p => (p.1.toNat + p.2.toNat) % 2 ^ 32 := by
  have hs : s.toList = [s[0], s[1], s[2], s[3], s[4], s[5], s[6], s[7]] := by
    apply List.ext_getElem (by simp)
    intro i hi _
    rw [Vector.length_toList] at hi
    interval_cases i <;> simp
  rw [hs]
  simp [feedForward, BitVec.toNat_add]

end Rounds

/-- Settles O24: a round is `compressionRound`, and the compression function feeds forward what the last one leaves. -/
theorem compressionIsSixtyFourRounds : Obligations.CompressionIsSixtyFourRounds := by
  intro s b w hschedule
  have hw : w.length = 64 := by rw [hschedule, schedule_length]
  refine ⟨workingAt_zero s w, fun j v v' t1 t2 hj hv hv' ht1 ht2 => ?rounds, fun v hv => ?feedForward⟩
  case rounds =>
    have hround : v' = compressionRound v (roundConstants.getD j 0) (scheduleAt w j) := by
      rw [hv', hv, workingAt_succ s w hj hw]
    rw [hround, ht1, ht2]
    refine ⟨rfl, rfl, rfl, ?_, rfl, rfl, rfl, ?_⟩
    · simp only [compressionRound, roundT1, BitVec.toNat_add, Nat.mod_add_mod]
    · simp only [compressionRound, roundT1, roundT2, BitVec.toNat_add, Nat.mod_add_mod]
  case feedForward =>
    rw [compressionFunction, compressWords, ← hschedule, allRounds_eq_workingAt s w hw, ← hv, feedForward_toList]

/-- Settles O25: the words that COMPRESS loads are those of the 64 bytes. -/
theorem compressChangesTheHashStateAlone : Obligations.CompressChangesTheHashStateAlone := by
  intro s
  rw [compress, blockWords_eq]
  rfl

section Digest

theorem byteOfWord_toNat (v : Word) {k : Nat} (hk : k < 4) :
    (byteOfWord v k).toNat = v.toNat / 256 ^ (3 - k) % 256 := by
  have hpow : 2 ^ (24 - 8 * k) = 256 ^ (3 - k) := by
    rw [show 24 - 8 * k = 8 * (3 - k) by omega, Nat.pow_mul]
  rw [byteOfWord, BitVec.extractLsb'_toNat, Nat.shiftRight_eq_div_pow, hpow]

theorem digestBytes_getElem (h : HashState) {n : Nat} (hn : n < 32) :
    (digestBytes h)[n] = byteOfWord h[n / 4] (n % 4) := by
  rw [digestBytes, Vector.getElem_ofFn]

/-- Word `i` of the hash state stands in bits `255 - 32i` down to `224 - 32i` of the port (spec/30_encoding.md R60). -/
theorem digestPort_extractWord (h : HashState) {i : Nat} (hi : i < 8) :
    (digestPort h).extractLsb' (224 - 32 * i) 32 = h[i] := by
  refine BitVec.eq_of_getLsbD_eq fun j hj => ?_
  rw [BitVec.getLsbD_extractLsb', decide_eq_true hj, Bool.true_and, digestPort]
  -- One case per word: the appended words to the right of it are skipped one after the other.
  simp only [BitVec.getLsbD_append]
  interval_cases i <;> simp (disch := omega) only [if_pos, if_neg] <;> exact congrArg _ (by omega)

/-- Byte `n` of the port, from the top, is byte `n` of the serialisation (R28, R60). -/
theorem digestPort_extractByte (h : HashState) {n : Nat} (hn : n < 32) :
    (digestPort h).extractLsb' (248 - 8 * n) 8 = (digestBytes h)[n] := by
  rw [digestBytes_getElem h hn, byteOfWord, ← digestPort_extractWord h (by omega)]
  refine BitVec.eq_of_getLsbD_eq fun j hj => ?_
  have hinner : 24 - 8 * (n % 4) + j < 32 := by omega
  have hindex : 248 - 8 * n + j = 224 - 32 * (n / 4) + (24 - 8 * (n % 4) + j) := by omega
  simp only [BitVec.getLsbD_extractLsb', hj, hinner, hindex, decide_true, Bool.true_and]

end Digest

/-- Settles O28: the digest and its port read `H` in phase `DONE` alone, and both take its words from the most significant
byte down. -/
theorem digestIsTheHashStateBigEndian : Obligations.DigestIsTheHashStateBigEndian := by
  refine ⟨fun s habsorb => ?absorb, fun s hdone => ?done, fun h i k => ?bytes, fun h n => ?port⟩
  case absorb => simp only [State.digest, State.outputs, habsorb, and_self]
  case done => simp only [State.digest, State.outputs, hdone, and_self]
  case bytes =>
    have hword : (4 * i.val + k.val) / 4 = i.val := by omega
    have hbyte : (4 * i.val + k.val) % 4 = k.val := by omega
    rw [digestBytes_getElem h (by omega)]
    simp only [hword, hbyte]
    exact byteOfWord_toNat _ k.isLt
  case port => exact digestPort_extractByte h n.isLt

end Sys2Proof.Machine
end

section
/-! Words and bytes of the block buffer (spec/20_memory.md R44, R56, R57): read after write, and the frame of a write. -/

namespace Sys2Proof.Machine

theorem wordOffset_add (i : WordIndex) (j : Nat) :
    wordOffset i + BitVec.ofNat 6 j = BitVec.ofNat 6 (4 * i.toNat + j) := by
  apply BitVec.eq_of_toNat_eq
  rw [BitVec.toNat_add, wordOffset_toNat, BitVec.toNat_ofNat, BitVec.toNat_ofNat, Nat.add_mod_mod]

/-- A word read is that of the four bytes from offset `4i` on (R56). -/
theorem memReadWord_eq (s : State) (i : WordIndex) : memReadWord s i =
    wordOfBytes (s.bufByte (BitVec.ofNat 6 (4 * i.toNat))) (s.bufByte (BitVec.ofNat 6 (4 * i.toNat + 1)))
      (s.bufByte (BitVec.ofNat 6 (4 * i.toNat + 2))) (s.bufByte (BitVec.ofNat 6 (4 * i.toNat + 3))) := by
  have hzero : BitVec.ofNat 6 (4 * i.toNat) = wordOffset i := by
    rw [← wordOffset_toNat, BitVec.ofNat_toNat, BitVec.setWidth_eq]
  rw [← wordOffset_add, ← wordOffset_add, ← wordOffset_add, hzero]
  rfl

/-- The bytes of a word make up the word (R44). -/
theorem wordOfBytes_byteOfWord (v : Word) :
    wordOfBytes (byteOfWord v 0) (byteOfWord v 1) (byteOfWord v 2) (byteOfWord v 3) = v := by
  have hv := v.isLt
  apply BitVec.eq_of_toNat_eq
  rw [wordOfBytes_toNat, byteOfWord_toNat v (by decide), byteOfWord_toNat v (by decide), byteOfWord_toNat v (by decide),
    byteOfWord_toNat v (by decide)]
  omega

/-- Byte `j` of word `i` after a word write. -/
theorem bufByte_memWriteWord_ofNat (s : State) (i i' : WordIndex) (v : Word) {j : Nat} (hj : j < 4) :
    (memWriteWord i v s).bufByte (BitVec.ofNat 6 (4 * i'.toNat + j)) =
      if i = i' then byteOfWord v j else s.bufByte (BitVec.ofNat 6 (4 * i'.toNat + j)) := by
  have hi' := i'.isLt
  have hoffset : (BitVec.ofNat 6 (4 * i'.toNat + j)).toNat = 4 * i'.toNat + j := by
    rw [BitVec.toNat_ofNat, Nat.mod_eq_of_lt (by omega)]
  have hword : (4 * i'.toNat + j) / 4 = i.toNat ↔ i = i' := by
    rw [← BitVec.toNat_inj]
    omega
  have hbyte : (4 * i'.toNat + j) % 4 = j := by omega
  rw [bufByte_memWriteWord, hoffset, hbyte]
  simp only [hword]

/-- Reading a word after writing one (R56, R57). -/
theorem memReadWord_memWriteWord (s : State) (i i' : WordIndex) (v : Word) :
    memReadWord (memWriteWord i v s) i' = if i = i' then v else memReadWord s i' := by
  have hfirst := bufByte_memWriteWord_ofNat s i i' v (j := 0) (by decide)
  rw [Nat.add_zero] at hfirst
  rw [memReadWord_eq, hfirst, bufByte_memWriteWord_ofNat s i i' v (by decide),
    bufByte_memWriteWord_ofNat s i i' v (by decide), bufByte_memWriteWord_ofNat s i i' v (by decide)]
  split_ifs
  · exact wordOfBytes_byteOfWord v
  · exact (memReadWord_eq s i').symm

/-- A word write changes `BUF` and nothing else (R57). -/
theorem memWriteWord_frame (s : State) (i : WordIndex) (v : Word) :
    memWriteWord i v s = { s with buf := (memWriteWord i v s).buf } := by
  rw [memWriteWord, storeAll_eq]

/-- Settles O18: words are read and written byte by byte, and a store goes to `BUF` alone. -/
theorem bufferWordsAreBigEndian : Obligations.BufferWordsAreBigEndian := by
  refine ⟨fun s i => ?read, fun s i v k => ?write, memReadWord_memWriteWord,
    fun s k k' v => bufByte_memWriteByte s k' k v, memWriteWord_frame, fun _ _ _ => rfl⟩
  case read => rw [memReadWord_eq, wordOfBytes_toNat]
  case write =>
    rw [bufByte_memWriteWord]
    split_ifs
    · exact byteOfWord_toNat v (Nat.mod_lt _ (by decide))
    · rfl

end Sys2Proof.Machine
end
